-- ==== Sys2Proof/Word.lean ====
section
/-! DEFINITION. The word types of SDEC (spec/00_scope.md R9, R10) and the exact rationals its decodes are computed
in (R10: `ℚ` is the exact rationals). -/

namespace Sys2Proof

/-- A data byte or a command byte (R9). -/
abbrev Byte := BitVec 8

/-- A raw 16-bit register result (R9). -/
abbrev Half := BitVec 16

/-- A response word (R9, R13). -/
abbrev Word := BitVec 32

/-- An exact rational, kept as numerator and denominator so that every decode evaluates on integers.
`Frac.toRat` is the rational it stands for (log entry 6). -/
structure Frac where
  num : Int
  den : Nat
  deriving DecidableEq, Repr

/-- The rational number a fraction stands for. -/
def Frac.toRat (q : Frac) : ℚ := (q.num : ℚ) / (q.den : ℚ)

end Sys2Proof
end

