-- ==== Sys2Proof/Machine/Exact.lean ====
section
/-! DEFINITION. Exact rational arithmetic on fractions, and single-bit extraction (spec/00_scope.md R10,
spec/41_magnetic.md R58). -/

namespace Sys2Proof

/-- An integer as a fraction. -/
def Frac.ofInt (z : Int) : Frac := ⟨z, 1⟩

/-- Exact sum. -/
def Frac.add (a b : Frac) : Frac := ⟨a.num * b.den + b.num * a.den, a.den * b.den⟩

/-- Exact product. -/
def Frac.mul (a b : Frac) : Frac := ⟨a.num * b.num, a.den * b.den⟩

/-- Exact quotient by a nonzero fraction; the divisor's sign goes to the numerator. -/
def Frac.div (a b : Frac) : Frac := ⟨a.num * b.den * b.num.sign, a.den * b.num.natAbs⟩

/-- Bit `i` of a 16-bit pattern: `(n >> i) & 1` (R10, R58). -/
def bitAt (n : Half) (i : Nat) : Nat := ((n >>> i) &&& 1#16).toNat

/-- `Σ_{i=0}^{k-1} ((n >> i) & 1) * 2^i`. -/
def bitSum (n : Half) : Nat → Nat
  | 0 => 0
  | i + 1 => bitSum n i + bitAt n i * 2 ^ i

end Sys2Proof
end

