-- ==== Sys2Proof/Machine/Float.lean ====
section
/-! DEFINITION. The binary32 format: sign bit 31, biased exponent bits 30:23 (bias 127), fraction bits 22:0, and
rounding to nearest with ties to even (spec/00_scope.md R11; log entries 7 and 8). -/

namespace Sys2Proof

/-- `⌊log2 (m / d)⌋` for positive `m` and `d`. -/
def floorLog2 (m d : Nat) : Int :=
  let e : Int := (m.log2 : Int) - (d.log2 : Int)
  if d * 2 ^ e.toNat ≤ m * 2 ^ (-e).toNat then e else e - 1

/-- The integer nearest to `n / d`, a tie going to the even one. -/
def roundNearestEven (n d : Nat) : Nat :=
  let q := n / d
  let r := n % d
  if 2 * r < d then q else if d < 2 * r then q + 1 else q + q % 2

/-- Bits 30:0 of the binary32 pattern nearest to `m / d`. The significand is scaled to 24 bits (fewer below the normal
range); adding it to the exponent field with its leading one lets a carry out of the rounding step raise the exponent,
and what lies beyond the largest finite value becomes infinity. -/
def f32Magnitude (m d : Nat) : Nat :=
  if m = 0 then 0
  else
    let e := max (floorLog2 m d) (-126)
    let shift := 23 - e
    let k := roundNearestEven (m * 2 ^ shift.toNat) (d * 2 ^ (-shift).toNat)
    min ((e + 126).toNat * 2 ^ 23 + k) 0x7F800000

/-- `f32_rne(q)`: the binary32 pattern nearest to `q`, with ties to even (R11). Zero is +0.0. -/
def f32Rne (q : Frac) : Word :=
  BitVec.ofNat 32 ((if q.num < 0 then 2 ^ 31 else 0) + f32Magnitude q.num.natAbs q.den)

/-- `f32_exact(q)`: the pattern whose value is exactly `q` (R11), used only where there is one; the nearest pattern is
then that one. -/
def f32Exact (q : Frac) : Word := f32Rne q

/-- The biased exponent field, bits 30:23. -/
def f32Exponent (w : Word) : Nat := (w.extractLsb' 23 8).toNat

/-- The fraction field, bits 22:0. -/
def f32Fraction (w : Word) : Nat := (w.extractLsb' 0 23).toNat

/-- The pattern is of a number, not of an infinity or a NaN. -/
def f32Finite (w : Word) : Bool := f32Exponent w != 255

/-- The 24-bit significand: the leading one is hidden, and absent below the normal range. -/
def f32Significand (w : Word) : Nat := if f32Exponent w = 0 then f32Fraction w else 2 ^ 23 + f32Fraction w

/-- The number a finite pattern stands for: significand times `2 ^ (exponent - 150)`, negative if bit 31 is set. -/
def f32Value (w : Word) : Frac :=
  let ex := max (f32Exponent w) 1
  let m : Int := (f32Significand w * 2 ^ (ex - 150) : Nat)
  ⟨if w.getLsbD 31 then -m else m, 2 ^ (150 - ex)⟩

end Sys2Proof
end

