-- ==== Sys2Proof/Syntax.lean ====
section
/-! DEFINITION. The abstract syntax: SDEC's six operations with their data bytes (spec/30_encoding.md R41, R43 and
spec/opcode_table.json), the request as it is delivered (R38), the error conditions (spec/60_exceptions.md R74), and the
lines of the assembler (R47). -/

namespace Sys2Proof

/-- The operations of the opcode map (R42, R43). -/
inductive Op
  | angle
  | field
  | xyz
  | temp
  | mag
  | id16
  deriving DecidableEq, Repr

/-- One operation with its data bytes in request order, `b0` the byte after `CMD` (R18, R26). -/
inductive Instr
  | angle (b0 b1 : Byte)
  | field (b0 b1 : Byte)
  | xyz (b0 b1 b2 b3 b4 b5 b6 : Byte)
  | temp (b0 b1 : Byte)
  | mag (b0 : Byte)
  | id16 (b0 b1 : Byte)
  deriving DecidableEq, Repr

/-- The operation an instruction is of. -/
def Instr.op : Instr → Op
  | .angle _ _ => .angle
  | .field _ _ => .field
  | .xyz _ _ _ _ _ _ _ => .xyz
  | .temp _ _ => .temp
  | .mag _ => .mag
  | .id16 _ _ => .id16

/-- An instruction's data bytes, in request order (R26). -/
def Instr.operands : Instr → List Byte
  | .angle b0 b1 => [b0, b1]
  | .field b0 b1 => [b0, b1]
  | .xyz b0 b1 b2 b3 b4 b5 b6 => [b0, b1, b2, b3, b4, b5, b6]
  | .temp b0 b1 => [b0, b1]
  | .mag b0 => [b0]
  | .id16 b0 b1 => [b0, b1]

/-- A request as the host delivers it: the command byte and the bytes after it (R18, R38). -/
structure Request where
  cmd : Byte
  data : List Byte
  deriving DecidableEq, Repr

/-- SDEC's two error conditions (R74): no such operation (R75), and byte-count mismatch (R76). -/
inductive ErrorKind
  | errOp
  | errLen
  deriving DecidableEq, Repr

/-- The assembler's pseudo-instructions, which take 16-bit operands (R47). -/
inductive Pseudo
  | angleW
  | fieldW
  | xyzW
  | tempW
  | id16W
  deriving DecidableEq, Repr

/-- One line of a program text after its comment is dropped (R47): nothing, `MNEMONIC b0, b1, ...`, a
pseudo-instruction, or `.cmd c, b0, ...`. The operands are the literals' values, not yet checked. -/
inductive AsmLine
  | blank
  | op (o : Op) (operands : List Nat)
  | pseudo (p : Pseudo) (operands : List Nat)
  | raw (c : Nat) (operands : List Nat)
  deriving DecidableEq, Repr

end Sys2Proof
end

