-- ==== Sys2Proof/Machine/Operands.lean ====
section
/-! DEFINITION. How many data bytes a request and an operation have, and how they become operands (spec/30_encoding.md R39,
R41, R42, spec/20_memory.md R28, spec/40_assembly.md R48). -/

namespace Sys2Proof

/-- `REQLEN`: the number of data bytes an operation requires (R42). -/
def Op.requiredLen : Op → Nat
  | .angle => 2
  | .field => 2
  | .xyz => 7
  | .temp => 2
  | .mag => 1
  | .id16 => 2

/-- `CMD[6:4]`, the number of data bytes that follow (R39). -/
def cmdLen (cmd : Byte) : Nat := (cmd.extractLsb' 4 3).toNat

namespace Machine

/-- `u16(hi, lo) = (zext_16(hi) << 8) | zext_16(lo)` (R48). -/
def u16 (hi lo : Byte) : Half := (hi.zeroExtend 16 <<< 8) ||| lo.zeroExtend 16

/-- Two bytes sent MSB first: ANGLE, FIELD and each axis of XYZ (R28, R41). -/
def msbFirst (b0 b1 : Byte) : Half := u16 b0 b1

/-- Two bytes sent LSB first: TEMP and ID16 (R28, R41). -/
def lsbFirst (b0 b1 : Byte) : Half := u16 b1 b0

end Machine

end Sys2Proof
end

