-- ==== Sys2Proof/WellFormed.lean ====
section
/-! DEFINITION. The checks on syntax: an instruction has as many data bytes as its operation requires
(spec/30_encoding.md R42), a request has as many as its `CMD` announces (R40), an assembler line is one the assembler does
not reject (R47). -/

namespace Sys2Proof

/-- The instruction has its operation's number of data bytes. The constructors of `Instr` can hold no other number, so
this is true of every instruction. -/
def Instr.wellFormed (i : Instr) : Bool := i.operands.length == i.op.requiredLen

/-- The request is `1 + CMD[6:4]` bytes long, whatever OP and RSV are (R40). -/
def Request.wellFormed (r : Request) : Bool := r.data.length == cmdLen r.cmd

/-- A literal that fits a byte (R47: decimal 0 to 255). -/
def isByteLit (v : Nat) : Bool := decide (v < 256)

/-- An operand of a pseudo-instruction that fits 16 bits (R47). -/
def isHalfLit (v : Nat) : Bool := decide (v < 65536)

/-- The assembler accepts the line (R47): the operand count is the operation's, each literal fits, and under `.cmd` the
count is the one the command byte announces. -/
def AsmLine.wellFormed : AsmLine → Bool
  | .blank => true
  | .op o bs => bs.length == o.requiredLen && bs.all isByteLit
  | .pseudo .xyzW [x, y, z, s] => isHalfLit x && isHalfLit y && isHalfLit z && isByteLit s
  | .pseudo .xyzW _ => false
  | .pseudo .angleW ns => ns.length == 1 && ns.all isHalfLit
  | .pseudo .fieldW ns => ns.length == 1 && ns.all isHalfLit
  | .pseudo .tempW ns => ns.length == 1 && ns.all isHalfLit
  | .pseudo .id16W ns => ns.length == 1 && ns.all isHalfLit
  | .raw c bs => isByteLit c && bs.all isByteLit && bs.length == cmdLen (BitVec.ofNat 8 c)

end Sys2Proof
end

