-- ==== Sys2Proof/Decode.lean ====
section
/-! DEFINITION. The request decoder, total on any bytes (spec/30_encoding.md R38 to R46), and after it the encoder. -/

namespace Sys2Proof

/-! ### Fields of the command byte (R39) -/

/-- `CMD[3:0]`, the operation number. -/
def cmdOp (cmd : Byte) : BitVec 4 := cmd.extractLsb' 0 4

/-- `CMD[7]`, reserved: 1 makes the request illegal (R44). -/
def cmdRsv (cmd : Byte) : Bool := cmd.getLsbD 7

/-- The opcode map (R42). The values it does not name are reserved. -/
def opOfNibble (n : BitVec 4) : Option Op :=
  match n.toNat with
  | 1 => some .angle
  | 2 => some .field
  | 3 => some .xyz
  | 4 => some .temp
  | 5 => some .mag
  | 6 => some .id16
  | _ => none

/-- What the request's data bytes are to its operation, in request order (R26, R41). -/
def instrOf (op : Op) (data : List Byte) : Option Instr :=
  match op, data with
  | .angle, [b0, b1] => some (.angle b0 b1)
  | .field, [b0, b1] => some (.field b0 b1)
  | .xyz, [b0, b1, b2, b3, b4, b5, b6] => some (.xyz b0 b1 b2 b3 b4 b5 b6)
  | .temp, [b0, b1] => some (.temp b0 b1)
  | .mag, [b0] => some (.mag b0)
  | .id16, [b0, b1] => some (.id16 b0 b1)
  | _, _ => none

/-- The checks of SDEC's step, in its order (R46, R78): RSV and OP first, then the length. `none` of `instrOf` cannot
occur for a request as long as its `CMD` announces. -/
def decodeRequest (cmd : Byte) (data : List Byte) : Except ErrorKind Instr :=
  if cmdRsv cmd then .error .errOp
  else
    match opOfNibble (cmdOp cmd) with
    | none => .error .errOp
    | some op =>
      if cmdLen cmd ≠ op.requiredLen then .error .errLen
      else
        match instrOf op data with
        | some i => .ok i
        | none => .error .errLen

/-! ### Request boundaries (R40) -/

/-- The first request of a byte stream and the bytes after it; `none` while it is not all there. -/
def frameRequest : List Byte → Option (Request × List Byte)
  | [] => none
  | cmd :: bs =>
    if cmdLen cmd ≤ bs.length then some (⟨cmd, bs.take (cmdLen cmd)⟩, bs.drop (cmdLen cmd)) else none

/-- What a byte stream begins with: an instruction, a request SDEC answers with an error, or a request that is not all
there. -/
inductive Decoded
  | instr (i : Instr) (rest : List Byte)
  | rejected (e : ErrorKind) (cmd : Byte) (rest : List Byte)
  | incomplete
  deriving DecidableEq, Repr

/-- The decoder on a byte stream. -/
def decodeBytes (bs : List Byte) : Decoded :=
  match frameRequest bs with
  | none => .incomplete
  | some (r, rest) =>
    match decodeRequest r.cmd r.data with
    | .ok i => .instr i rest
    | .error e => .rejected e r.cmd rest

/-- The byte stream cut at its request boundaries, as far as its requests are whole (R40). Each request takes at least
one byte, so as many rounds as there are bytes are enough. -/
def frameAllIn : Nat → List Byte → List Request
  | 0, _ => []
  | rounds + 1, bs =>
    match frameRequest bs with
    | none => []
    | some (r, rest) => r :: frameAllIn rounds rest

/-- All whole requests of a byte stream, in order (R40). -/
def frameAll (bs : List Byte) : List Request := frameAllIn bs.length bs

/-! ### The encoder -/

/-- The one valid command byte of an operation (R42). -/
def Op.cmd : Op → Byte
  | .angle => 0x21
  | .field => 0x22
  | .xyz => 0x73
  | .temp => 0x24
  | .mag => 0x15
  | .id16 => 0x26

/-- An instruction's request. -/
def Instr.request (i : Instr) : Request := ⟨i.op.cmd, i.operands⟩

/-- A request's bytes in stream order (R38). -/
def Request.bytes (r : Request) : List Byte := r.cmd :: r.data

/-- An instruction's bytes in stream order (R38, R42). -/
def encode (i : Instr) : List Byte := i.request.bytes

/-! ### The opcode table's numbering -/

/-- The bytes of a request whose low `nbits` bits are `w`, numbered as spec/opcode_table.json numbers them (bits 7:0 are
`CMD`), the bits above them zero: `CMD` and as many bytes as it announces. -/
def tableBytes (nbits w : Nat) : List Byte :=
  let v := w % 2 ^ nbits
  let cmd := BitVec.ofNat 8 v
  cmd :: (List.range (cmdLen cmd)).map fun i => BitVec.ofNat 8 (v / 2 ^ (8 * (i + 1)))

/-- What the decoder reads from such a request. -/
def decodeTableWord (nbits w : Nat) : Option Instr :=
  match decodeBytes (tableBytes nbits w) with
  | .instr i _ => some i
  | .rejected _ _ _ => none
  | .incomplete => none

end Sys2Proof
end

