-- ==== Sys2Proof/Machine/State.lean ====
section
/-! DEFINITION. SDEC's state: the response register RSP (spec/10_state.md R13), and the model's own fields for what the
host has sent and what has been observed (log entries 1 and 2). -/

namespace Sys2Proof.Machine

/-- The response register: the status word and the three result words RES0, RES1, RES2 (R13, R14, R16). -/
structure Rsp where
  rsp0 : Word
  rsp1 : Word
  rsp2 : Word
  rsp3 : Word
  deriving DecidableEq, Repr

/-- RSP after reset: every word 0x00000000 (R23). -/
def Rsp.zero : Rsp := ⟨0x00000000, 0x00000000, 0x00000000, 0x00000000⟩

/-- One thing the host does at SDEC's interface (spec/70_reset_and_hazards.md R98): deliver one byte of the request
stream, read a response word, reset. The response word space is indices 0 to 3 (spec/20_memory.md R24, R37). RSP has no
write port (R17), so no event writes it. SDEC's step takes a finite, unspecified time (R97), so what the host does next may
land before or after it: a byte is delivered in one of two ways, which differ in that alone. That a step falls before all
the reads and resets that follow its request's last byte with no byte between, or before none of them, is the model's
choice (DESIGN CHOICE, log entry 9). -/
inductive PortEvent
  /-- A byte; a request it makes whole has stepped when the host's next act lands. -/
  | byte (b : Byte)
  /-- A byte; a request it makes whole has not stepped yet when the reads, and the reset, that follow it with no byte
  between land. -/
  | heldByte (b : Byte)
  | read (index : Fin 4)
  | reset
  deriving DecidableEq, Repr

/-- One entry of the event history (spec/60_exceptions.md R80): a response a step wrote, a word a host read returned, a
reset. -/
inductive Observation
  | response (r : Rsp)
  | readOut (index : Fin 4) (value : Word)
  | wasReset
  deriving DecidableEq, Repr

/-- The state. `rsp` is all of SDEC's (R13). `port` (what the host does next, the first event first) and `trace` (what has
been observed, the newest first) are the model's own: no result depends on them. -/
structure State where
  rsp : Rsp
  port : List PortEvent
  trace : List Observation
  deriving DecidableEq, Repr

/-- The machine right after reset: RSP is zero (R23, R87), nothing sent, nothing observed. -/
def State.reset : State := ⟨Rsp.zero, [], []⟩

/-- The faults of SDEC: none. "The step never hangs, faults the unit or leaves RSP partly written" (spec/30_encoding.md
R46); an error is a status in the response (spec/60_exceptions.md R74), and a response word outside indices 0 to 3 cannot
be named (log entry 10). -/
inductive Fault
  deriving DecidableEq, Repr

/-- The refusals. -/
inductive Refusal
  /-- Raised only by an arm of `exec` whose instruction has no meaning yet (safe). No arm raises it in this model. -/
  | notModelled (mnemonic : String)
  deriving DecidableEq, Repr

end Sys2Proof.Machine
end

