-- ==== Sys2Proof/Machine/Flags.lean ====
section
/-! DEFINITION. The status word RSP0: its one flag field STATUS, its CMD field, and how a step composes it
(spec/10_state.md R14, R15, R21). -/

namespace Sys2Proof.Machine

/-- The values of `RSP0.STATUS` (R15). -/
inductive Status
  | idle
  | ok
  | errOp
  | errLen
  deriving DecidableEq, Repr

/-- The encodings of STATUS (R15). -/
def Status.code : Status → Word
  | .idle => 0
  | .ok => 1
  | .errOp => 2
  | .errLen => 3

/-- The status an error condition is reported as (spec/60_exceptions.md R74). -/
def errorStatus : ErrorKind → Status
  | .errOp => .errOp
  | .errLen => .errLen

/-- `(zext_32(CMD) << 8) | code`: RSP0 as every step writes it (spec/30_encoding.md R46, spec/60_exceptions.md R77). -/
def statusWord (cmd : Byte) (st : Status) : Word := (cmd.zeroExtend 32 <<< 8) ||| st.code

/-- `RSP0[1:0]` (R14). All four values are used (R15). -/
def statusOf (w : Word) : Status :=
  match (w.extractLsb' 0 2).toNat with
  | 0 => .idle
  | 1 => .ok
  | 2 => .errOp
  | _ => .errLen

/-- `RSP0[15:8]`, the echoed command byte (R14). -/
def cmdOf (w : Word) : Byte := w.extractLsb' 8 8

/-- `RSP0[7:2]` and `RSP0[31:16]` read zero (R14: hardwired 0). -/
def reservedZero (w : Word) : Bool := w.extractLsb' 2 6 == 0 && w.extractLsb' 16 16 == 0

end Sys2Proof.Machine
end

