-- ==== Sys2Proof/Machine/Ops.lean ====
section
/-! DEFINITION. The operations over the response register that the meanings share: writing it whole, the OK response,
raising an error, and what the host does to it (spec/10_state.md R17, spec/30_encoding.md R46, spec/60_exceptions.md R77,
spec/70_reset_and_hazards.md R87). -/

namespace Sys2Proof.Machine

/-- `RSP<index>`: the response word space (spec/20_memory.md R24). -/
def Rsp.word (r : Rsp) (index : Fin 4) : Word :=
  match index.val with
  | 0 => r.rsp0
  | 1 => r.rsp1
  | 2 => r.rsp2
  | _ => r.rsp3

/-- Write all four words together, the only way a step writes RSP (R17, spec/20_memory.md R32), and record the
response. -/
def State.writeRsp (s : State) (r : Rsp) : State := { s with rsp := r, trace := .response r :: s.trace }

/-- The rest of the port, after an event is taken. -/
def State.withPort (s : State) (p : List PortEvent) : State := { s with port := p }

/-- A successful operation's response: STATUS = OK with `CMD` echoed, and the three result words (R46). -/
def respondOk (cmd : Byte) (res0 res1 res2 : Word) (s : State) : State :=
  s.writeRsp ⟨statusWord cmd .ok, res0, res1, res2⟩

/-- `raise E(cmd)`: the error response, the whole of the step (R77). -/
def raiseError (e : ErrorKind) (cmd : Byte) (s : State) : State :=
  s.writeRsp ⟨statusWord cmd (errorStatus e), 0x00000000, 0x00000000, 0x00000000⟩

/-- A host read: it returns the word's current value and changes no state of SDEC (R17). The returned value is
recorded. -/
def hostRead (index : Fin 4) (s : State) : State :=
  { s with trace := .readOut index (s.rsp.word index) :: s.trace }

/-- Reset sets RSP to its reset value (R23, R87). -/
def hostReset (s : State) : State := { s with rsp := Rsp.zero, trace := .wasReset :: s.trace }

end Sys2Proof.Machine
end

