-- ==== Sys2Proof/Machine/Angle.lean ====
section
/-! DEFINITION. The angle decode and its operation ANGLE (spec/42_angle.md). -/

namespace Sys2Proof.Machine

/-- `integer_part + fractional_part` in degrees: bits [12:4] unsigned, and bits [3:0] each weighted `2^i / 16` (R59).
Bits 15:13 take no part (R60); no wrap, clamp or error at 360 and above (R61). -/
def angle (n : Half) : Frac :=
  let integerPart := Frac.ofInt ((n.extractLsb' 4 9).toNat : Int)
  let fractionalPart : Frac := ⟨(bitSum n 4 : Int), 16⟩
  integerPart.add fractionalPart

/-- ANGLE: the angle code, MSB first, to binary32 degrees (R62). -/
def execAngle (b0 b1 : Byte) (s : State) : Host.Outcome State Fault Refusal :=
  .next (respondOk Op.angle.cmd (f32Exact (angle (msbFirst b0 b1))) 0x00000000 0x00000000 s)

end Sys2Proof.Machine
end

