-- ==== Sys2Proof/Machine/Identifier.lean ====
section
/-! DEFINITION. The manufacturer-ID assembly, operation ID16 (spec/40_assembly.md R50). -/

namespace Sys2Proof.Machine

/-- ID16: two bytes, LSB first, to `zext_32` of the 16-bit identifier; it is not sign-extended (R50). -/
def execId16 (b0 b1 : Byte) (s : State) : Host.Outcome State Fault Refusal :=
  .next (respondOk Op.id16.cmd ((lsbFirst b0 b1).zeroExtend 32) 0x00000000 0x00000000 s)

end Sys2Proof.Machine
end

