-- ==== Sys2Proof/Config.lean ====
section
/-! DEFINITION. What one build of SDEC fixes: the build-time parameters of spec/00_scope.md R8, which are not state, and
the temperature constants of spec/43_temperature.md R65. -/

namespace Sys2Proof

/-- The two candidate decodes of the magnitude byte (R8, R71). -/
inductive MagMode
  | raw
  | digitwise
  deriving DecidableEq, Repr, Inhabited

/-- `R_MT`, the full-scale range in millitesla: 40 in this hardware (R8, R90; log entry 5). -/
def Config.rMt : Nat := 40

/-- `MAG_MODE`. The spec leaves it OPEN, with no default (R70), so it has no body: nothing can be proved that holds in
one mode only, unless the claim names the mode (log entry 4). -/
opaque Config.magMode : MagMode

/-- `T_SENS_T0`, the reference temperature in degrees Celsius (R65). -/
def Config.tSensT0 : Int := 25

/-- `T_ADC_T0`, the code at the reference temperature (R65). -/
def Config.tAdcT0 : Int := 17508

/-- `T_ADC_RES`, 601/10 codes per degree (R65). -/
def Config.tAdcRes : Frac := ⟨601, 10⟩

end Sys2Proof
end

