-- ==== Sys2Proof/Machine/Magnetic.lean ====
section
/-! DEFINITION. The magnetic field decode and its operations FIELD and XYZ (spec/41_magnetic.md). -/

namespace Sys2Proof.Machine

/-- The field in millitesla of raw pattern `n` at full-scale range `R`, step by step as R52 gives it: the sign bit weighs
`-2^15 / 2^16`, bit `i` below it `2^i / 2^16`, and the sum is multiplied by `2 * R`. -/
def mag (R : Nat) (n : Half) : Frac :=
  let sign : Int := bitAt n 15
  let partA : Frac := ⟨-sign * 2 ^ 15, 2 ^ 16⟩
  let partB : Frac := ⟨(bitSum n 15 : Int), 2 ^ 16⟩
  ((partA.add partB).mul (Frac.ofInt 2)).mul (Frac.ofInt R)

/-- One axis's result word (R54). -/
def magWord (n : Half) : Word := f32Exact (mag Config.rMt n)

/-- FIELD: one magnetic axis, MSB first, to binary32 mT (R55). -/
def execField (b0 b1 : Byte) (s : State) : Host.Outcome State Fault Refusal :=
  .next (respondOk Op.field.cmd (magWord (msbFirst b0 b1)) 0x00000000 0x00000000 s)

/-- XYZ: the seven-byte burst, each axis on its own, MSB first; the device-status byte `_b6` is not used (R56). -/
def execXyz (b0 b1 b2 b3 b4 b5 _b6 : Byte) (s : State) : Host.Outcome State Fault Refusal :=
  .next
    (respondOk Op.xyz.cmd (magWord (msbFirst b0 b1)) (magWord (msbFirst b2 b3)) (magWord (msbFirst b4 b5)) s)

end Sys2Proof.Machine
end

