-- ==== Sys2Proof/Machine/Magnitude.lean ====
section
/-! DEFINITION. The magnitude decode and its operation MAG (spec/44_magnitude.md). -/

namespace Sys2Proof.Machine

/-- The loop of the digit-wise decode (R71): while `r` is not zero, add its last decimal digit weighted `2^i`, drop that
digit, go on with `i + 1`. `rounds` bounds the loop. -/
def digitLoop : (rounds acc i r : Nat) → Nat
  | 0, acc, _, _ => acc
  | rounds + 1, acc, i, r => if r = 0 then acc else digitLoop rounds (acc + r % 10 * 2 ^ i) (i + 1) (r / 10)

/-- `magdec(m)`: the two candidate functions on the magnitude byte (R71). A byte has at most three decimal digits, so
three rounds of the loop end it (log entry 15). -/
def magdec (mode : MagMode) (m : Byte) : Nat :=
  match mode with
  | .raw => m.toNat
  | .digitwise => digitLoop 3 0 0 m.toNat

/-- MAG under a named mode: the magnitude byte to a 32-bit two's-complement integer (R72). -/
def execMagIn (mode : MagMode) (b0 : Byte) (s : State) : Host.Outcome State Fault Refusal :=
  .next (respondOk Op.mag.cmd (BitVec.ofInt 32 (magdec mode b0 : Int)) 0x00000000 0x00000000 s)

/-- MAG under the machine's own mode, which is open (R70; log entry 4). -/
def execMag (b0 : Byte) (s : State) : Host.Outcome State Fault Refusal := execMagIn Config.magMode b0 s

end Sys2Proof.Machine
end

