-- ==== Sys2Proof/Machine/Temperature.lean ====
section
/-! DEFINITION. The temperature decode and its operation TEMP (spec/43_temperature.md). -/

namespace Sys2Proof.Machine

/-- `T_SENS_T0 + (TADCT - T_ADC_T0) / T_ADC_RES` in degrees Celsius (R65). TADCT is an unsigned code (R64). -/
def temp (tadct : Nat) : Frac :=
  (Frac.ofInt Config.tSensT0).add ((Frac.ofInt ((tadct : Int) - Config.tAdcT0)).div Config.tAdcRes)

/-- TEMP: the temperature code, LSB first, to binary32 degrees Celsius, rounded to nearest even (R66, R67). -/
def execTemp (b0 b1 : Byte) (s : State) : Host.Outcome State Fault Refusal :=
  .next (respondOk Op.temp.cmd (f32Rne (temp (lsbFirst b0 b1).toNat)) 0x00000000 0x00000000 s)

end Sys2Proof.Machine
end

