-- ==== Sys2Proof/Machine/Dispatch.lean ====
section
/-! DEFINITION. One arm per operation (spec/30_encoding.md R46, the case of its step). -/

namespace Sys2Proof.Machine

def exec (i : Instr) (s : State) : Host.Outcome State Fault Refusal :=
  match i with
  | .angle b0 b1 => Sys2Proof.Machine.execAngle b0 b1 s
  | .field b0 b1 => Sys2Proof.Machine.execField b0 b1 s
  | .xyz b0 b1 b2 b3 b4 b5 b6 => Sys2Proof.Machine.execXyz b0 b1 b2 b3 b4 b5 b6 s
  | .temp b0 b1 => Sys2Proof.Machine.execTemp b0 b1 s
  | .mag b0 => Sys2Proof.Machine.execMag b0 s
  | .id16 b0 b1 => Sys2Proof.Machine.execId16 b0 b1 s

end Sys2Proof.Machine
end

