-- ==== Sys2Proof/Machine/Port.lean ====
section
/-! DEFINITION. The request port: which event SDEC takes next (spec/30_encoding.md R40, spec/20_memory.md R30,
spec/70_reset_and_hazards.md R87, R97, R98; log entries 1, 3 and 9). -/

namespace Sys2Proof.Machine

/-- What the port holds for the next step: a whole request, a host read, a reset, or nothing that can be taken yet. -/
inductive NextEvent
  | request (r : Request) (rest : List PortEvent)
  | read (index : Fin 4) (rest : List PortEvent)
  | reset (rest : List PortEvent)
  | wait
  deriving DecidableEq, Repr

/-- The bytes as the host delivers them to an SDEC that steps before the host's next act. -/
def asEvents (bs : List Byte) : List PortEvent := bs.map PortEvent.byte

/-- The byte an event delivers. -/
def PortEvent.byte? : PortEvent → Option Byte
  | .byte b => some b
  | .heldByte b => some b
  | .read _ => none
  | .reset => none

/-- The bytes that events deliver. -/
def delivered (p : List PortEvent) : List Byte := p.filterMap PortEvent.byte?

/-- The host's next act is a read or a reset. -/
def hostActNext : List PortEvent → Bool
  | [] => false
  | .byte _ :: _ => false
  | .heldByte _ :: _ => false
  | .read _ :: _ => true
  | .reset :: _ => true

/-- Scan the port with the deliveries `seen` already passed. A request they make whole is next (R40), unless its last byte
is held and a read or a reset lands before its step. A read is served from the last response and leaves the deliveries
where they are; a reset discards them, of a request begun and not stepped (R87); and the end of the port means waiting for
the rest. DESIGN CHOICE (log entry 9): R97 leaves the time of a step open, and in the model the step of a request falls
before every read and reset that follows its last byte with no byte between (`byte`), or after the reads and, if a reset
ends them, not at all (`heldByte`), never between two of those acts. A run in which it falls between two is shown by the
port in which the earlier reads stand before the last byte: the history and RSP are the same. -/
def scanPort (seen : List PortEvent) : List PortEvent → NextEvent
  | [] => .wait
  | .read k :: rest => .read k (seen ++ rest)
  | .reset :: rest => .reset rest
  | .byte b :: rest =>
    match frameRequest (delivered seen ++ [b]) with
    | some (r, _) => .request r rest
    | none => scanPort (seen ++ [.byte b]) rest
  | .heldByte b :: rest =>
    match frameRequest (delivered seen ++ [b]) with
    | some (r, _) => if hostActNext rest then scanPort (seen ++ [.heldByte b]) rest else .request r rest
    | none => scanPort (seen ++ [.heldByte b]) rest

/-- The event SDEC takes next: the first to be complete, in the order the host sent them (R30). -/
def nextEvent (p : List PortEvent) : NextEvent := scanPort [] p

end Sys2Proof.Machine
end

