-- ==== Sys2Proof/Machine/Step.lean ====
section
/-! DEFINITION. The step: SDEC takes the next event of its port (spec/30_encoding.md R46, spec/70_reset_and_hazards.md
R98), and `withFetchWord`, which puts a request where the step takes its next one. -/

namespace Sys2Proof.Machine

/-- One step. A whole request is consumed and answered, by its operation or by the error response (R46); a host read and
a reset take effect between steps (R98); with nothing to take, SDEC waits (R87; log entry 3). -/
def step (s : State) : Host.Outcome State Fault Refusal :=
  match nextEvent s.port with
  | .request r rest =>
    match decodeRequest r.cmd r.data with
    | .ok i => exec i (s.withPort rest)
    | .error e => .next (raiseError e r.cmd (s.withPort rest))
  | .read k rest => .next (hostRead k (s.withPort rest))
  | .reset rest => .next (hostReset (s.withPort rest))
  | .wait => .next s

/-- The state with the request of `tableBytes nbits w` delivered at the head of its port, so that the next step takes it
(log entry 16). -/
def State.withFetchWord (s : State) (nbits w : Nat) : State :=
  s.withPort (asEvents (tableBytes nbits w) ++ s.port)

end Sys2Proof.Machine
end

