-- ==== Sys2Proof/Machine/Assembler.lean ====
section
/-! DEFINITION. The assembler of spec/30_encoding.md R47: from the text of a program to its request bytes. The details of
the text that R47 leaves open are log entry 11. -/

namespace Sys2Proof.Machine

/-! ### From lines to bytes -/

/-- `n[15:8]` and `n[7:0]` of a 16-bit operand (R47). -/
def highByte (n : Nat) : Nat := n / 256 % 256

/-- See `highByte`. -/
def lowByte (n : Nat) : Nat := n % 256

/-- What a pseudo-instruction expands to (R47): the bytes MSB first, LSB first under TEMPW and ID16W. Operand counts
other than its own do not pass `AsmLine.wellFormed`. -/
def expandPseudo : Pseudo → List Nat → AsmLine
  | .angleW, ns => .op .angle (ns.flatMap fun n => [highByte n, lowByte n])
  | .fieldW, ns => .op .field (ns.flatMap fun n => [highByte n, lowByte n])
  | .xyzW, [x, y, z, s] => .op .xyz [highByte x, lowByte x, highByte y, lowByte y, highByte z, lowByte z, s]
  | .xyzW, ns => .op .xyz ns
  | .tempW, ns => .op .temp (ns.flatMap fun n => [lowByte n, highByte n])
  | .id16W, ns => .op .id16 (ns.flatMap fun n => [lowByte n, highByte n])

/-- The bytes of a line that is no pseudo-instruction: the command byte, then the listed bytes in request order. -/
def plainBytes : AsmLine → List Byte
  | .blank => []
  | .op o bs => o.cmd :: bs.map (BitVec.ofNat 8)
  | .raw c bs => BitVec.ofNat 8 c :: bs.map (BitVec.ofNat 8)
  | .pseudo _ _ => []

/-- The bytes of a line. -/
def lineBytes : AsmLine → List Byte
  | .pseudo p ns => plainBytes (expandPseudo p ns)
  | .blank => plainBytes .blank
  | .op o bs => plainBytes (.op o bs)
  | .raw c bs => plainBytes (.raw c bs)

/-- Assemble one line, or reject it (R47: "or the assembler rejects the line"). -/
def assembleLine (l : AsmLine) : Option (List Byte) := if l.wellFormed then some (lineBytes l) else none

/-- A program's encoding is the concatenation of its requests' bytes (R47). R47 says only that a line is rejected; that one
rejected line makes the whole program fail to assemble is the model's choice (DESIGN CHOICE, log entry 11). -/
def assemble : List AsmLine → Option (List Byte)
  | [] => some []
  | l :: ls =>
    match assembleLine l, assemble ls with
    | some bs, some more => some (bs ++ more)
    | _, _ => none

/-! ### From text to lines -/

/-- White space inside a line. -/
def isBlank (c : Char) : Bool := c == ' ' || c == '\t' || c == '\r'

/-- The text without the white space around it. -/
def trimBlanks (cs : List Char) : List Char := ((cs.dropWhile isBlank).reverse.dropWhile isBlank).reverse

/-- The pieces of a text between the separators. -/
def splitAtChar (sep : Char) : List Char → List (List Char)
  | [] => [[]]
  | c :: cs =>
    if c = sep then [] :: splitAtChar sep cs
    else
      match splitAtChar sep cs with
      | [] => [[c]]
      | p :: ps => (c :: p) :: ps

/-- The value of a digit; letters count in base 16 only. -/
def digitValue (base : Nat) (c : Char) : Option Nat :=
  let n := c.toNat
  let v := if 48 ≤ n ∧ n ≤ 57 then n - 48 else if 65 ≤ n ∧ n ≤ 70 then n - 55 else if 97 ≤ n ∧ n ≤ 102 then n - 87 else base
  if v < base then some v else none

/-- The value of a digit string, after the digits that gave `acc`. -/
def digitsValue (base : Nat) : (acc : Nat) → List Char → Option Nat
  | acc, [] => some acc
  | acc, c :: cs =>
    match digitValue base c with
    | some v => digitsValue base (acc * base + v) cs
    | none => none

/-- A literal: hex after `0x`, else decimal (R47). -/
def literalValue : List Char → Option Nat
  | [] => none
  | '0' :: 'x' :: [] => none
  | '0' :: 'x' :: ds => digitsValue 16 0 ds
  | ds => digitsValue 10 0 ds

/-- The values of all literals of an operand list. -/
def literalValues : List (List Char) → Option (List Nat)
  | [] => some []
  | t :: ts =>
    match literalValue (trimBlanks t), literalValues ts with
    | some v, some vs => some (v :: vs)
    | _, _ => none

/-- The operands of a line, separated by commas. -/
def operandValues (cs : List Char) : Option (List Nat) :=
  if trimBlanks cs = [] then some [] else literalValues (splitAtChar ',' cs)

/-- The mnemonics of the operations (R42, R47). -/
def opNames : List (List Char × Op) :=
  [("ANGLE".toList, .angle), ("FIELD".toList, .field), ("XYZ".toList, .xyz), ("TEMP".toList, .temp),
    ("MAG".toList, .mag), ("ID16".toList, .id16)]

/-- The mnemonics of the pseudo-instructions (R47). -/
def pseudoNames : List (List Char × Pseudo) :=
  [("ANGLEW".toList, .angleW), ("FIELDW".toList, .fieldW), ("XYZW".toList, .xyzW), ("TEMPW".toList, .tempW),
    ("ID16W".toList, .id16W)]

/-- The line of a mnemonic and its operands. -/
def lineOf (name : List Char) (ns : List Nat) : Option AsmLine :=
  match opNames.lookup name, pseudoNames.lookup name with
  | some o, _ => some (.op o ns)
  | none, some p => some (.pseudo p ns)
  | none, none =>
    if name = ".cmd".toList then
      match ns with
      | c :: bs => some (.raw c bs)
      | [] => none
    else none

/-- One line of text; `;` starts a comment (R47). -/
def parseLine (text : List Char) : Option AsmLine :=
  let body := trimBlanks (text.takeWhile fun c => c != ';')
  if body = [] then some .blank
  else
    match operandValues (body.dropWhile fun c => !isBlank c) with
    | some ns => lineOf (body.takeWhile fun c => !isBlank c) ns
    | none => none

/-- All lines of a text. -/
def parseLines : List (List Char) → Option (List AsmLine)
  | [] => some []
  | t :: ts =>
    match parseLine t, parseLines ts with
    | some l, some ls => some (l :: ls)
    | _, _ => none

/-- Assemble a program text (R47); a line that cannot be read fails it whole, as in `assemble` (log entry 11). -/
def assembleText (text : List Char) : Option (List Byte) :=
  match parseLines (splitAtChar '\n' text) with
  | some ls => assemble ls
  | none => none

end Sys2Proof.Machine
end

