-- ==== Sys2Proof/Safety.lean ====
section
/-! DEFINITION. The terms claims about SDEC are stated in: what a result word stands for, which responses are legal, and
the invariant of the machine. -/

namespace Sys2Proof

/-- `w` is `f32_exact(q)` (spec/00_scope.md R11): a finite pattern whose value is exactly `q`, and not -0.0
(spec/41_magnetic.md R54). -/
def IsF32Of (w : Word) (q : ℚ) : Prop :=
  f32Finite w = true ∧ (f32Value w).toRat = q ∧ w ≠ 0x80000000

/-- `w` is a nearest binary32 pattern to `q`, and no other binary32 value is as near: there is no tie. -/
def IsUniqueNearestF32 (w : Word) (q : ℚ) : Prop :=
  f32Finite w = true ∧
    ∀ v : Word, f32Finite v = true → (f32Value v).toRat ≠ (f32Value w).toRat →
      |(f32Value w).toRat - q| < |(f32Value v).toRat - q|

namespace Machine

/-- The events are deliveries of bytes. -/
def onlyDeliveries (p : List PortEvent) : Bool := p.all fun e => e.byte?.isSome

/-- The last of the deliveries is a held byte. -/
def lastIsHeld (p : List PortEvent) : Bool :=
  match p.getLast? with
  | none => false
  | some (.byte _) => false
  | some (.heldByte _) => true
  | some (.read _) => false
  | some .reset => false

/-- The events `p` deliver exactly the request `r`, and nothing that follows them lands before its step. -/
def takes (p : List PortEvent) (r : Request) (rest : List PortEvent) : Bool :=
  onlyDeliveries p && r.wellFormed && delivered p == r.bytes && !(lastIsHeld p && hostActNext rest)

/-- The events `p` deliver a request that is not stepped when a read or a reset follows (spec/70_reset_and_hazards.md R87):
one that is not whole, or a whole one whose last byte is held. -/
def notStepped (p : List PortEvent) : Bool :=
  onlyDeliveries p &&
    match frameRequest (delivered p) with
    | none => true
    | some (_, more) => more.isEmpty && lastIsHeld p

/-- The command byte names no operation (spec/30_encoding.md R44). -/
def IllegalCmd (cmd : Byte) : Prop := cmdRsv cmd = true ∨ opOfNibble (cmdOp cmd) = none

/-- The command byte names an operation and announces another number of bytes than it requires (R45). -/
def MismatchedCmd (cmd : Byte) : Prop :=
  cmdRsv cmd = false ∧ ∃ op, opOfNibble (cmdOp cmd) = some op ∧ cmdLen cmd ≠ op.requiredLen

/-- The command byte is valid for `op` (R42). -/
def ValidCmd (cmd : Byte) (op : Op) : Prop :=
  cmdRsv cmd = false ∧ opOfNibble (cmdOp cmd) = some op ∧ cmdLen cmd = op.requiredLen

/-- The word is the decode of some 16-bit axis pattern at ±40 mT (spec/41_magnetic.md R53, R54). -/
def IsFieldWord (w : Word) : Prop :=
  ∃ k : Int, -32768 ≤ k ∧ k ≤ 32767 ∧ IsF32Of w ((k : ℚ) * 5 / 4096)

/-- What the result words of a successful operation may hold (spec/10_state.md R16 and the rule of each operation). -/
def Rsp.ResultLegal (r : Rsp) : Op → Prop
  | .angle => (∃ k : Nat, k ≤ 8191 ∧ IsF32Of r.rsp1 ((k : ℚ) / 16)) ∧ r.rsp2 = 0 ∧ r.rsp3 = 0
  | .field => IsFieldWord r.rsp1 ∧ r.rsp2 = 0 ∧ r.rsp3 = 0
  | .xyz => IsFieldWord r.rsp1 ∧ IsFieldWord r.rsp2 ∧ IsFieldWord r.rsp3
  | .temp =>
    (∃ c : Nat, c ≤ 65535 ∧ IsUniqueNearestF32 r.rsp1 (25 + 10 * ((c : ℚ) - 17508) / 601)) ∧ r.rsp2 = 0 ∧ r.rsp3 = 0
  | .mag => r.rsp1.toNat ≤ 255 ∧ r.rsp2 = 0 ∧ r.rsp3 = 0
  | .id16 => r.rsp1.toNat ≤ 65535 ∧ r.rsp2 = 0 ∧ r.rsp3 = 0

/-- A response that reset or a step may leave in RSP: the reserved bits are zero (R14), and STATUS, CMD and the result
words agree with each other (R15, R16). -/
def Rsp.Legal (r : Rsp) : Prop :=
  reservedZero r.rsp0 = true ∧
    match statusOf r.rsp0 with
    | .idle => r = Rsp.zero
    | .ok => ∃ op : Op, cmdOf r.rsp0 = op.cmd ∧ r.ResultLegal op
    | .errOp => IllegalCmd (cmdOf r.rsp0) ∧ r.rsp1 = 0 ∧ r.rsp2 = 0 ∧ r.rsp3 = 0
    | .errLen => MismatchedCmd (cmdOf r.rsp0) ∧ r.rsp1 = 0 ∧ r.rsp2 = 0 ∧ r.rsp3 = 0

/-- The response in force after a history: that of the last step since the last reset, RSP's reset value if there is
none (spec/20_memory.md R30, spec/10_state.md R23). -/
def lastRsp : List Observation → Rsp
  | [] => Rsp.zero
  | .response r :: _ => r
  | .readOut _ _ :: earlier => lastRsp earlier
  | .wasReset :: _ => Rsp.zero

/-- Every host read returned the word of the response then in force (R30), every recorded response is legal, and no step
wrote IDLE (R15). -/
def TraceCoherent : List Observation → Prop
  | [] => True
  | .response r :: earlier => r.Legal ∧ statusOf r.rsp0 ≠ .idle ∧ TraceCoherent earlier
  | .readOut k w :: earlier => w = (lastRsp earlier).word k ∧ TraceCoherent earlier
  | .wasReset :: earlier => TraceCoherent earlier

/-- The invariant of the machine: RSP is legal, it is the response in force, and the history is coherent. -/
structure State.Inv (s : State) : Prop where
  legal : s.rsp.Legal
  inForce : s.rsp = lastRsp s.trace
  coherent : TraceCoherent s.trace

/-- The response SDEC gives to one request delivered alone after reset. -/
def answer (r : Request) : Rsp :=
  match step (State.reset.withPort (asEvents r.bytes)) with
  | .next t => t.rsp
  | .fault _ => Rsp.zero
  | .refused _ => Rsp.zero

/-- SDEC answers the request with `a`: from every state whose port begins with the request's bytes, however delivered, the
step consumes exactly those bytes, leaves `a` in RSP and records it, and changes nothing else. -/
def AnswersWith (r : Request) (a : Rsp) : Prop :=
  ∀ (s : State) (p rest : List PortEvent), takes p r rest = true → s.port = p ++ rest →
    step s = .next ⟨a, rest, .response a :: s.trace⟩

/-- A state right after a reset: `State.reset` with something sent, or what a reset in the port leaves, whatever request
was begun and not stepped before it. -/
def AfterReset (t : State) : Prop :=
  (∃ p, t = { State.reset with port := p }) ∨
    ∃ (s : State) (p : List PortEvent), notStepped p = true ∧ s.port = p ++ .reset :: t.port ∧ step s = .next t

/-- A response written out as numbers: status word `256 * CMD + code`, and the three result words. -/
def rspOf (cmd : Byte) (code : Nat) (res0 res1 res2 : Word) : Rsp :=
  ⟨BitVec.ofNat 32 (256 * cmd.toNat + code), res0, res1, res2⟩

/-- A request for operation number `opNumber` with RSV = 0 and a length other than `requiredLen` is answered with
ERR_LEN and nothing else (spec/60_exceptions.md R76, R77). -/
def WrongLengthReported (opNumber requiredLen : Nat) : Prop :=
  ∀ (cmd : Byte) (data : List Byte), cmd.toNat < 128 → cmd.toNat % 16 = opNumber → data.length = cmd.toNat / 16 →
    data.length ≠ requiredLen → AnswersWith ⟨cmd, data⟩ (rspOf cmd 3 0 0 0)

/-- Whatever the state, the instruction leaves `w` in RES0. -/
def Res0Is (i : Instr) (w : Word) : Prop := ∀ s : State, ∃ t, exec i s = .next t ∧ t.rsp.rsp1 = w

/-- A response has been written since the last reset. -/
def respondedSinceReset : List Observation → Bool
  | [] => false
  | .response _ :: _ => true
  | .readOut _ _ :: earlier => respondedSinceReset earlier
  | .wasReset :: _ => false

end Machine

end Sys2Proof
end

