-- ==== Sys2Proof/Certificates/Slice0/Obligations.lean ====
section
/-! DEFINITION. The statements about SDEC, each from a numbered rule of spec/ or from the sections it names. Numbers are
written out as the spec writes them (a command byte's fields by `/` and `%`, the status word as `256 * CMD + code`), so
that a statement does not rest on the model's own field functions. -/

open Sys2Proof Sys2Proof.Machine

/-! ### Reset and the invariant -/

/-- R23: after reset every response word is zero, STATUS is IDLE, CMD is 0x00; a reset by the host leaves the same; and
reset is the only event that writes IDLE: a step after which STATUS reads IDLE was a reset, or it took no request and left
RSP alone. -/
def Obligations.ResetClearsResponse : Prop :=
  (State.reset.rsp = ⟨0x00000000, 0x00000000, 0x00000000, 0x00000000⟩ ∧ statusOf State.reset.rsp.rsp0 = .idle ∧
    cmdOf State.reset.rsp.rsp0 = 0x00) ∧
  (∀ (s : State) (p rest : List PortEvent), notStepped p = true → s.port = p ++ .reset :: rest →
    ∃ t, step s = .next t ∧ t.rsp = ⟨0x00000000, 0x00000000, 0x00000000, 0x00000000⟩) ∧
  (∀ s t : State, step s = .next t → statusOf t.rsp.rsp0 = .idle →
    (∃ p rest : List PortEvent, notStepped p = true ∧ s.port = p ++ .reset :: rest) ∨
    (t.rsp = s.rsp ∧ ∀ (p : List PortEvent) (r : Request) (rest : List PortEvent), takes p r rest = true →
      s.port ≠ p ++ rest))

/-- The state after reset meets the invariant. -/
def Obligations.ResetStateMeetsInvariant : Prop := State.reset.Inv

/-- Every step keeps the invariant `State.Inv`: RSP stays a legal response (reserved bits zero, STATUS, CMD and result words
in agreement, each result the exact or nearest binary32 of a code), it is the response in force, and every recorded read
returned the response then in force. The history is the model's own field (log entry 2). -/
def Obligations.StepKeepsInvariant : Prop := ∀ s t : State, s.Inv → step s = .next t → t.Inv

/-! ### Encoding -/

/-- Decode and encode agree in both directions, for every well-formed instruction and whatever bytes follow: a stream
decodes to `i` with `rest` left over if and only if it is the encoding of `i` followed by `rest`. -/
def Obligations.DecodeAndEncodeAgree : Prop :=
  ∀ (i : Instr) (bs rest : List Byte), i.wellFormed = true → (decodeBytes bs = .instr i rest ↔ bs = encode i ++ rest)

/-- Words written out from the opcode map (R42) decode to the instructions they stand for. -/
def Obligations.SampleEncodingsDecode : Prop :=
  decodeBytes [0x21, 0x0B, 0x48] = .instr (.angle 0x0B 0x48) [] ∧
  decodeBytes [0x22, 0x40, 0x00] = .instr (.field 0x40 0x00) [] ∧
  decodeBytes [0x73, 0x10, 0x00, 0xF0, 0x00, 0x80, 0x00, 0x5A] = .instr (.xyz 0x10 0x00 0xF0 0x00 0x80 0x00 0x5A) [] ∧
  decodeBytes [0x24, 0x64, 0x44] = .instr (.temp 0x64 0x44) [] ∧
  decodeBytes [0x15, 0x65] = .instr (.mag 0x65) [] ∧
  decodeBytes [0x26, 0x49, 0x54] = .instr (.id16 0x49 0x54) []

/-- A step runs the decoded instruction: with bytes at the head of the port that decode to `i`, the step is `exec i` at the
state whose port is past them; with bytes that are rejected, it is the error response at that state. The same of a request
with held bytes in it, if nothing lands before its step. -/
def Obligations.StepRunsTheDecodedInstruction : Prop :=
  (∀ (s : State) (bs rest : List Byte) (i : Instr) (p : List PortEvent), decodeBytes bs = .instr i rest →
    s.port = asEvents bs ++ p → step s = exec i { s with port := asEvents rest ++ p }) ∧
  (∀ (s : State) (bs rest : List Byte) (e : ErrorKind) (cmd : Byte) (p : List PortEvent),
    decodeBytes bs = .rejected e cmd rest → s.port = asEvents bs ++ p →
    step s = .next (raiseError e cmd { s with port := asEvents rest ++ p })) ∧
  (∀ (s : State) (p rest : List PortEvent) (i : Instr), takes p i.request rest = true → s.port = p ++ rest →
    step s = exec i { s with port := rest }) ∧
  (∀ (s : State) (p rest : List PortEvent) (r : Request) (e : ErrorKind), takes p r rest = true →
    decodeRequest r.cmd r.data = .error e → s.port = p ++ rest →
    step s = .next (raiseError e r.cmd { s with port := rest }))

/-- R40: a request is exactly `1 + CMD[6:4]` bytes, whatever OP and RSV are; a step always consumes those bytes and no
more; so a stream of requests is cut at known places. -/
def Obligations.RequestBoundaries : Prop :=
  (∀ (cmd : Byte) (bs : List Byte), frameRequest (cmd :: bs) =
    if cmd.toNat / 16 % 8 ≤ bs.length then
      some (⟨cmd, bs.take (cmd.toNat / 16 % 8)⟩, bs.drop (cmd.toNat / 16 % 8))
    else none) ∧
  (∀ (s : State) (p : List PortEvent) (r : Request) (rest : List PortEvent), takes p r rest = true → s.port = p ++ rest →
    (delivered p).length = 1 + r.cmd.toNat / 16 % 8 ∧ ∃ t, step s = .next t ∧ t.port = rest) ∧
  (∀ rs : List Request, (∀ r ∈ rs, r.data.length = r.cmd.toNat / 16 % 8) → frameAll (rs.flatMap Request.bytes) = rs)

/-- R42: the opcode map. Each operation has exactly one valid command byte, of the OP and length the map gives, and every
other command byte names no instruction. -/
def Obligations.OpcodeMap : Prop :=
  (∀ b0 b1 b2 b3 b4 b5 b6 : Byte,
    encode (.angle b0 b1) = [0x21, b0, b1] ∧ encode (.field b0 b1) = [0x22, b0, b1] ∧
    encode (.xyz b0 b1 b2 b3 b4 b5 b6) = [0x73, b0, b1, b2, b3, b4, b5, b6] ∧
    encode (.temp b0 b1) = [0x24, b0, b1] ∧ encode (.mag b0) = [0x15, b0] ∧ encode (.id16 b0 b1) = [0x26, b0, b1]) ∧
  (∀ (cmd : Byte) (data : List Byte), data.length = cmd.toNat / 16 % 8 →
    ((∃ i, decodeRequest cmd data = .ok i) ↔
      cmd = 0x21 ∨ cmd = 0x22 ∨ cmd = 0x73 ∨ cmd = 0x24 ∨ cmd = 0x15 ∨ cmd = 0x26)) ∧
  (∀ (cmd : Byte) (data : List Byte) (i : Instr), decodeRequest cmd data = .ok i → encode i = cmd :: data) ∧
  (∀ (cmd : Byte) (data : List Byte), data.length = cmd.toNat / 16 % 8 →
    (cmd.toNat % 16 = 0 ∨ 7 ≤ cmd.toNat % 16) → AnswersWith ⟨cmd, data⟩ (rspOf cmd 2 0 0 0))

/-- R44: a command byte with bit 7 set, or with OP 0 or 7 to 15, names no operation and its request ends with ERR_OP, and
no other command byte does; there are 208 of them. -/
def Obligations.IllegalCommandBytes : Prop :=
  (∀ (cmd : Byte) (data : List Byte), data.length = cmd.toNat / 16 % 8 →
    (AnswersWith ⟨cmd, data⟩ (rspOf cmd 2 0 0 0) ↔
      128 ≤ cmd.toNat ∨ cmd.toNat % 16 = 0 ∨ 7 ≤ cmd.toNat % 16)) ∧
  ((List.range 256).filter fun c => 128 ≤ c ∨ c % 16 = 0 ∨ 7 ≤ c % 16).length = 208 ∧
  ((List.range 256).filter fun c => c % 16 = 0 ∨ 7 ≤ c % 16).length = 160 ∧
  ((List.range 256).filter fun c => 128 ≤ c).length = 128 ∧
  ((List.range 256).filter fun c => 128 ≤ c ∧ (c % 16 = 0 ∨ 7 ≤ c % 16)).length = 80

/-- R45: a command byte with bit 7 clear, a valid OP and another length than required ends with ERR_LEN, and no other
does; each valid OP has 7 of them, 42 in all, and with the 6 valid and the 208 illegal bytes that is all 256. -/
def Obligations.LengthMismatchBytes : Prop :=
  (∀ (cmd : Byte) (data : List Byte), data.length = cmd.toNat / 16 % 8 →
    (AnswersWith ⟨cmd, data⟩ (rspOf cmd 3 0 0 0) ↔
      cmd.toNat < 128 ∧ 1 ≤ cmd.toNat % 16 ∧ cmd.toNat % 16 ≤ 6 ∧
        cmd ≠ 0x21 ∧ cmd ≠ 0x22 ∧ cmd ≠ 0x73 ∧ cmd ≠ 0x24 ∧ cmd ≠ 0x15 ∧ cmd ≠ 0x26)) ∧
  (∀ op : Op, ((List.range 256).filter fun c =>
    decodeRequest (BitVec.ofNat 8 c) (List.replicate (c / 16 % 8) 0) = .error .errLen ∧
      c % 16 = op.cmd.toNat % 16).length = 7) ∧
  ((List.range 256).filter fun c =>
    decodeRequest (BitVec.ofNat 8 c) (List.replicate (c / 16 % 8) 0) = .error .errLen).length = 42 ∧
  6 + 42 + 208 = 256

/-! ### Errors -/

/-- R75: ERR_OP, code 2, for any request whose command byte has bit 7 set or OP 0 or 7 to 15, whatever its length and data
bytes; the data bytes are consumed, and the command byte is recorded in RSP0[15:8]. -/
def Obligations.ErrOpReported : Prop :=
  ∀ (s : State) (p : List PortEvent) (r : Request) (rest : List PortEvent), takes p r rest = true →
    (128 ≤ r.cmd.toNat ∨ r.cmd.toNat % 16 = 0 ∨ 7 ≤ r.cmd.toNat % 16) → s.port = p ++ rest →
    ∃ t, step s = .next t ∧ statusOf t.rsp.rsp0 = .errOp ∧ t.rsp.rsp0.toNat % 4 = 2 ∧
      t.rsp.rsp0.toNat / 256 % 256 = r.cmd.toNat ∧ t.port = rest

/-- R76: ERR_LEN, code 3, for ANGLE, FIELD, TEMP and ID16 with LEN ≠ 2, XYZ with LEN ≠ 7, MAG with LEN ≠ 1, bit 7 clear; the
command byte is recorded in RSP0[15:8]. -/
def Obligations.ErrLenReported : Prop :=
  ∀ (s : State) (p : List PortEvent) (r : Request) (rest : List PortEvent), takes p r rest = true → r.cmd.toNat < 128 →
    (((r.cmd.toNat % 16 = 1 ∨ r.cmd.toNat % 16 = 2 ∨ r.cmd.toNat % 16 = 4 ∨ r.cmd.toNat % 16 = 6) ∧
        r.cmd.toNat / 16 ≠ 2) ∨
      (r.cmd.toNat % 16 = 3 ∧ r.cmd.toNat / 16 ≠ 7) ∨ (r.cmd.toNat % 16 = 5 ∧ r.cmd.toNat / 16 ≠ 1)) →
    s.port = p ++ rest →
    ∃ t, step s = .next t ∧ statusOf t.rsp.rsp0 = .errLen ∧ t.rsp.rsp0.toNat % 4 = 3 ∧
      t.rsp.rsp0.toNat / 256 % 256 = r.cmd.toNat

/-- R77: the error response is the whole of the step: RSP0 is the command byte above the code, the result words are zero,
and nothing else changes (the data bytes are gone from the port, and the history gains the response). -/
def Obligations.ErrorResponse : Prop :=
  ∀ (r : Request) (e : ErrorKind), r.wellFormed = true → decodeRequest r.cmd r.data = .error e →
    AnswersWith r (rspOf r.cmd (match e with | .errOp => 2 | .errLen => 3) 0x00000000 0x00000000 0x00000000)

/-- R78: a request that meets both conditions reports ERR_OP: bit 7 set with a valid OP and another length than required.
ERR_LEN is reported only when bit 7 is clear and OP is valid, and a request reports at most one error. -/
def Obligations.ErrOpHasPriority : Prop :=
  (∀ (cmd : Byte) (data : List Byte) (op : Op), data.length = cmd.toNat / 16 % 8 → 128 ≤ cmd.toNat →
    cmd.toNat % 16 = op.cmd.toNat % 16 → data.length ≠ op.requiredLen →
    AnswersWith ⟨cmd, data⟩ (rspOf cmd 2 0 0 0) ∧ ¬ AnswersWith ⟨cmd, data⟩ (rspOf cmd 3 0 0 0)) ∧
  (∀ (cmd : Byte) (data : List Byte), decodeRequest cmd data = .error .errLen →
    cmd.toNat < 128 ∧ 1 ≤ cmd.toNat % 16 ∧ cmd.toNat % 16 ≤ 6) ∧
  (∀ (r : Request) (a b : Rsp), r.wellFormed = true → AnswersWith r a → AnswersWith r b → a = b)

/-- R74: exactly two error conditions: every request is answered OK, ERR_OP or ERR_LEN, and each of the two errors is some
request's answer. A valid command byte never reports an error, whatever its data bytes: the step runs the operation on them
and answers OK. An error affects no other request: a request is answered the same from every state. -/
def Obligations.TwoErrorConditions : Prop :=
  (∀ r : Request, r.wellFormed = true → AnswersWith r (answer r) ∧
    (statusOf (answer r).rsp0 = .ok ∨ statusOf (answer r).rsp0 = .errOp ∨ statusOf (answer r).rsp0 = .errLen)) ∧
  AnswersWith ⟨0x80, []⟩ (rspOf 0x80 2 0 0 0) ∧ AnswersWith ⟨0x01, []⟩ (rspOf 0x01 3 0 0 0) ∧
  (∀ (i : Instr) (s : State), ∃ t, exec i s = .next t ∧ statusOf t.rsp.rsp0 = .ok) ∧
  (∀ (i : Instr) (s : State) (rest : List PortEvent), s.port = asEvents (encode i) ++ rest →
    ∃ t, step s = .next t ∧ statusOf t.rsp.rsp0 = .ok ∧ t.port = rest) ∧
  (∀ (cmd : Byte) (data : List Byte) (s : State) (p rest : List PortEvent),
    (cmd = 0x21 ∨ cmd = 0x22 ∨ cmd = 0x73 ∨ cmd = 0x24 ∨ cmd = 0x15 ∨ cmd = 0x26) → takes p ⟨cmd, data⟩ rest = true →
    s.port = p ++ rest → ∃ i t, encode i = cmd :: data ∧ step s = exec i { s with port := rest } ∧ step s = .next t ∧
      statusOf t.rsp.rsp0 = .ok)

/-! ### The operations -/

/-- R62: ANGLE. From every state it completes with the exact binary32 of `n[12:0] / 16` degrees in RES0, MSB first, zero in
RES1 and RES2, OK with CMD 0x21 echoed; nothing else changes. LEN ≠ 2 is ERR_LEN. The rule's corner cases and example. -/
def Obligations.AngleOperation : Prop :=
  (∀ (b0 b1 : Byte) (s : State), ∃ t, exec (.angle b0 b1) s = .next t ∧ t.rsp.rsp0 = 0x00002101 ∧
    IsF32Of t.rsp.rsp1 ((((256 * b0.toNat + b1.toNat) % 8192 : Nat) : ℚ) / 16) ∧
    t.rsp.rsp2 = 0x00000000 ∧ t.rsp.rsp3 = 0x00000000 ∧ t.port = s.port ∧ t.trace = .response t.rsp :: s.trace) ∧
  (∀ b0 b1 : Byte, encode (.angle b0 b1) = [0x21, b0, b1]) ∧ WrongLengthReported 1 2 ∧
  ∀ c ∈ ([(.angle 0x00 0x00, 0x00000000), (.angle 0x00 0x01, 0x3D800000), (.angle 0x00 0x0F, 0x3F700000),
    (.angle 0x00 0x10, 0x3F800000), (.angle 0x16 0x7F, 0x43B3F800), (.angle 0x16 0x80, 0x43B40000),
    (.angle 0x1F 0xFF, 0x43FFF800), (.angle 0xE0 0x00, 0x00000000), (.angle 0xFF 0xFF, 0x43FFF800),
    (.angle 0x0B 0x48, 0x43348000)] : List (Instr × Word)), Res0Is c.1 c.2

/-- R55: FIELD. From every state it completes with the exact binary32 of `sext_16(n) * 40 / 32768` mT in RES0, MSB first,
zero in RES1 and RES2, OK with CMD 0x22 echoed; nothing else changes. LEN ≠ 2 is ERR_LEN. The rule's corner cases and
example. -/
def Obligations.FieldOperation : Prop :=
  (∀ (b0 b1 : Byte) (s : State), ∃ t, exec (.field b0 b1) s = .next t ∧ t.rsp.rsp0 = 0x00002201 ∧
    IsF32Of t.rsp.rsp1 (((BitVec.ofNat 16 (256 * b0.toNat + b1.toNat)).toInt : ℚ) * 40 / 32768) ∧
    t.rsp.rsp2 = 0x00000000 ∧ t.rsp.rsp3 = 0x00000000 ∧ t.port = s.port ∧ t.trace = .response t.rsp :: s.trace) ∧
  (∀ b0 b1 : Byte, encode (.field b0 b1) = [0x22, b0, b1]) ∧ WrongLengthReported 2 2 ∧
  ∀ c ∈ ([(.field 0x00 0x00, 0x00000000), (.field 0x80 0x00, 0xC2200000), (.field 0x7F 0xFF, 0x421FFEC0),
    (.field 0xFF 0xFF, 0xBAA00000), (.field 0x00 0x01, 0x3AA00000), (.field 0x40 0x00, 0x41A00000)] :
    List (Instr × Word)), Res0Is c.1 c.2

/-- R56: XYZ. From every state it completes with each axis's exact binary32 of `sext_16(n) * 40 / 32768` mT, MSB first, in
RES0 (X), RES1 (Y) and RES2 (Z), OK with CMD 0x73 echoed; nothing else changes. The device-status byte changes nothing.
LEN ≠ 7 is ERR_LEN. The rule's example. -/
def Obligations.XyzOperation : Prop :=
  (∀ (b0 b1 b2 b3 b4 b5 b6 : Byte) (s : State), ∃ t, exec (.xyz b0 b1 b2 b3 b4 b5 b6) s = .next t ∧
    t.rsp.rsp0 = 0x00007301 ∧
    IsF32Of t.rsp.rsp1 (((BitVec.ofNat 16 (256 * b0.toNat + b1.toNat)).toInt : ℚ) * 40 / 32768) ∧
    IsF32Of t.rsp.rsp2 (((BitVec.ofNat 16 (256 * b2.toNat + b3.toNat)).toInt : ℚ) * 40 / 32768) ∧
    IsF32Of t.rsp.rsp3 (((BitVec.ofNat 16 (256 * b4.toNat + b5.toNat)).toInt : ℚ) * 40 / 32768) ∧
    t.port = s.port ∧ t.trace = .response t.rsp :: s.trace) ∧
  (∀ (b0 b1 b2 b3 b4 b5 b6 c6 : Byte) (s : State),
    exec (.xyz b0 b1 b2 b3 b4 b5 b6) s = exec (.xyz b0 b1 b2 b3 b4 b5 c6) s) ∧
  (∀ b0 b1 b2 b3 b4 b5 b6 : Byte, encode (.xyz b0 b1 b2 b3 b4 b5 b6) = [0x73, b0, b1, b2, b3, b4, b5, b6]) ∧
  WrongLengthReported 3 7 ∧
  (∀ s : State, ∃ t, exec (.xyz 0x10 0x00 0xF0 0x00 0x80 0x00 0x5A) s = .next t ∧
    t.rsp.rsp1 = 0x40A00000 ∧ t.rsp.rsp2 = 0xC0A00000 ∧ t.rsp.rsp3 = 0xC2200000) ∧
  (∀ (b0 b1 b6 : Byte) (s : State), ∃ t, exec (.xyz b0 b1 b0 b1 b0 b1 b6) s = .next t ∧
    t.rsp.rsp1 = t.rsp.rsp2 ∧ t.rsp.rsp2 = t.rsp.rsp3)

/-- R67: TEMP. From every state it completes with the binary32 nearest to `25 + 10 * (TADCT - 17508) / 601` degrees in RES0
(no other binary32 value is as near), TADCT LSB first and unsigned, zero in RES1 and RES2, OK with CMD 0x24 echoed; nothing
else changes. No result is zero. LEN ≠ 2 is ERR_LEN. The rule's corner cases and example. -/
def Obligations.TempOperation : Prop :=
  (∀ (b0 b1 : Byte) (s : State), ∃ t, exec (.temp b0 b1) s = .next t ∧ t.rsp.rsp0 = 0x00002401 ∧
    IsUniqueNearestF32 t.rsp.rsp1 (25 + 10 * (((256 * b1.toNat + b0.toNat : Nat) : ℚ) - 17508) / 601) ∧
    (f32Value t.rsp.rsp1).toRat ≠ 0 ∧
    t.rsp.rsp2 = 0x00000000 ∧ t.rsp.rsp3 = 0x00000000 ∧ t.port = s.port ∧ t.trace = .response t.rsp :: s.trace) ∧
  (∀ b0 b1 : Byte, encode (.temp b0 b1) = [0x24, b0, b1]) ∧ WrongLengthReported 4 2 ∧
  ∀ c ∈ ([(.temp 0x00 0x00, 0xC3852841), (.temp 0x0B 0x42, 0x41700000), (.temp 0x63 0x44, 0x41C7DDEC),
    (.temp 0x64 0x44, 0x41C80000), (.temp 0x65 0x44, 0x41C82214), (.temp 0xBD 0x46, 0x420C0000),
    (.temp 0x00 0x80, 0x438B7480), (.temp 0xFF 0xFF, 0x444E0790)] : List (Instr × Word)), Res0Is c.1 c.2

/-- R72 (with R71's two functions): MAG. Under each mode it completes from every state with the mode's integer in RES0,
zero in RES1 and RES2, OK with CMD 0x15 echoed; nothing else changes; the machine's own MAG is that of its open mode (log
entry 4). LEN ≠ 1 is ERR_LEN. The rule's corner cases, m with its RAW and DIGITWISE results. -/
def Obligations.MagOperation : Prop :=
  (∀ (mode : MagMode) (b0 : Byte) (s : State), ∃ t, execMagIn mode b0 s = .next t ∧ t.rsp.rsp0 = 0x00001501 ∧
    t.rsp.rsp1.toInt = ((match mode with
      | .raw => b0.toNat
      | .digitwise => Nat.ofDigits 2 (Nat.digits 10 b0.toNat) : Nat) : Int) ∧ t.rsp.rsp1.getLsbD 31 = false ∧
    t.rsp.rsp2 = 0x00000000 ∧ t.rsp.rsp3 = 0x00000000 ∧ t.port = s.port ∧ t.trace = .response t.rsp :: s.trace) ∧
  (∀ (b0 : Byte) (s : State), ∃ t, exec (.mag b0) s = .next t ∧ execMagIn Config.magMode b0 s = .next t) ∧
  (∀ b0 : Byte, encode (.mag b0) = [0x15, b0]) ∧ WrongLengthReported 5 1 ∧
  ∀ c ∈ ([(0, 0, 0), (9, 9, 9), (10, 10, 2), (101, 101, 5), (111, 111, 7), (127, 127, 15), (128, 128, 16),
    (199, 199, 31), (200, 200, 8), (255, 255, 23)] : List (Byte × Nat × Nat)),
    magdec .raw c.1 = c.2.1 ∧ magdec .digitwise c.1 = c.2.2

/-- R50: ID16. From every state it completes with `zext_32` of the 16-bit value in RES0, LSB first and not sign-extended,
zero in RES1 and RES2, OK with CMD 0x26 echoed; nothing else changes. LEN ≠ 2 is ERR_LEN. The rule's corner cases and
example. -/
def Obligations.Id16Operation : Prop :=
  (∀ (b0 b1 : Byte) (s : State), ∃ t, exec (.id16 b0 b1) s = .next t ∧ t.rsp.rsp0 = 0x00002601 ∧
    t.rsp.rsp1.toNat = 256 * b1.toNat + b0.toNat ∧
    t.rsp.rsp2 = 0x00000000 ∧ t.rsp.rsp3 = 0x00000000 ∧ t.port = s.port ∧ t.trace = .response t.rsp :: s.trace) ∧
  (∀ b0 b1 : Byte, encode (.id16 b0 b1) = [0x26, b0, b1]) ∧ WrongLengthReported 6 2 ∧
  ∀ c ∈ ([(.id16 0x00 0x00, 0x00000000), (.id16 0xFF 0xFF, 0x0000FFFF), (.id16 0x49 0x54, 0x00005449)] :
    List (Instr × Word)), Res0Is c.1 c.2

/-- The frame of every operation: it completes, the request stream is untouched, the history gains the response and nothing
else, the reserved bits of RSP0 are zero, and every operation but XYZ leaves zero in RES1 and RES2. -/
def Obligations.EveryOperationCompletesInItsFrame : Prop :=
  ∀ (i : Instr) (s : State), ∃ t, exec i s = .next t ∧ t.port = s.port ∧ t.trace = .response t.rsp :: s.trace ∧
    t.rsp.rsp0.toNat = 256 * i.op.cmd.toNat + 1 ∧
    (i.op ≠ .xyz → t.rsp.rsp2 = 0x00000000 ∧ t.rsp.rsp3 = 0x00000000)

/-! ### The decode functions -/

/-- R49: the laws of `u16`. -/
def Obligations.ByteAssemblyLaws : Prop :=
  (∀ hi lo : Byte, (u16 hi lo).extractLsb' 8 8 = hi ∧ (u16 hi lo).extractLsb' 0 8 = lo) ∧
  (Function.Bijective fun p : Byte × Byte => u16 p.1 p.2) ∧
  (∀ hi lo : Byte, (u16 hi lo).toNat = 256 * hi.toNat + lo.toNat)

/-- R52: the magnetic decoder, step by step, in exact rationals; and R58: bit `i` is `(n >> i) & 1`. -/
def Obligations.MagneticDecoderSteps : Prop :=
  (∀ (R : Nat) (n : Half), (mag R n).toRat =
    (-(((n.toNat >>> 15) &&& 1 : Nat) : ℚ) * 2 ^ 15 / 2 ^ 16 +
      ∑ i ∈ Finset.range 15, (((n.toNat >>> i) &&& 1 : Nat) : ℚ) * 2 ^ i / 2 ^ 16) * 2 * R) ∧
  (∀ (n : Half) (i : Nat), bitAt n i = (n.toNat >>> i) &&& 1)

/-- R53: the fraction lies in [-0.5, 0.5) and is the signed code over 2^16; the closed form, the size of one code at R = 40,
and the range. -/
def Obligations.MagneticClosedForm : Prop :=
  (∀ n : Half, -1 / 2 ≤ (n.toInt : ℚ) / 2 ^ 16 ∧ (n.toInt : ℚ) / 2 ^ 16 < 1 / 2 ∧
    -(((n.toNat >>> 15) &&& 1 : Nat) : ℚ) * 2 ^ 15 / 2 ^ 16 +
    ∑ i ∈ Finset.range 15, (((n.toNat >>> i) &&& 1 : Nat) : ℚ) * 2 ^ i / 2 ^ 16 = (n.toInt : ℚ) / 2 ^ 16) ∧
  (∀ (R : Nat) (n : Half), (mag R n).toRat = (n.toInt : ℚ) * (2 * R) / 65536 ∧
    (mag R n).toRat = (n.toInt : ℚ) * R / 32768 ∧ -(R : ℚ) ≤ (mag R n).toRat ∧
    (mag R n).toRat ≤ (R : ℚ) - R / 32768) ∧
  (∀ n : Half, (mag 40 n).toRat = (n.toInt : ℚ) * 5 / 4096 ∧ -40 ≤ (mag 40 n).toRat ∧
    (mag 40 n).toRat ≤ 39.998779296875) ∧
  (mag 40 0x0001).toRat = 0.001220703125

/-- R54: for every pattern and every integer range from 1 to 512 the decode is exactly representable in binary32 and the
output is that pattern, never -0.0; FIELD outputs it. -/
def Obligations.MagneticOutputIsExact : Prop :=
  (∀ (R : Nat) (n : Half), 1 ≤ R → R ≤ 512 → IsF32Of (f32Exact (mag R n)) (mag R n).toRat) ∧
  (∀ R : Nat, f32Exact (mag R 0x0000) = 0x00000000) ∧
  (∀ (b0 b1 : Byte) (s : State), ∃ t, exec (.field b0 b1) s = .next t ∧
    t.rsp.rsp1 = f32Exact (mag 40 (BitVec.ofNat 16 (256 * b0.toNat + b1.toNat))))

/-- R57: the magnetic decoder at zero and at both ends; odd on every pattern but 0x8000; strictly increasing in the signed
code, and not in the unsigned one; the binary32 outputs keep the order. -/
def Obligations.MagneticProperties : Prop :=
  (∀ R : Nat, (mag R 0x0000).toRat = 0 ∧ (mag R 0x8000).toRat = -R ∧ (mag R 0x7FFF).toRat = R - R / 32768) ∧
  (mag 40 0x8000).toRat = -40 ∧ (mag 40 0x7FFF).toRat = 40 - 5 / 4096 ∧
  (∀ (R : Nat) (x : Half), x ≠ 0x8000 →
    (mag R (BitVec.ofNat 16 ((2 ^ 16 - x.toNat) % 2 ^ 16))).toRat = -(mag R x).toRat) ∧
  (∀ (R : Nat) (a b : Half), 1 ≤ R → a.toInt < b.toInt → (mag R a).toRat < (mag R b).toRat) ∧
  (mag 40 0x8000).toRat < (mag 40 0x7FFF).toRat ∧
  (∀ a b : Half, a.toInt < b.toInt →
    (f32Value (f32Exact (mag 40 a))).toRat < (f32Value (f32Exact (mag 40 b))).toRat)

/-- R59 and R60: the angle decoder, bits [12:4] unsigned plus bits [3:0] each weighted `2^i / 16`, its closed form, and that
bits 15 to 13 take no part. -/
def Obligations.AngleDecoderSteps : Prop :=
  (∀ n : Half, (angle n).toRat = (((n.toNat >>> 4) % 512 : Nat) : ℚ) +
    ∑ i ∈ Finset.range 4, (((n.toNat >>> i) &&& 1 : Nat) : ℚ) * 2 ^ i / 16) ∧
  (∀ n : Half, (angle n).toRat = ((n.toNat % 8192 : Nat) : ℚ) / 16) ∧
  (∀ n : Half, angle n = angle (n &&& 0x1FFF))

/-- R61: the range of the angle decoder; a code of 360 degrees or more is output unchanged, with status OK. -/
def Obligations.AngleDoesNotWrap : Prop :=
  (∀ n : Half, 0 ≤ (angle n).toRat ∧ (angle n).toRat ≤ 511.9375) ∧
  (∀ (b0 b1 : Byte) (s : State), 360 ≤ (256 * b0.toNat + b1.toNat) % 8192 / 16 →
    ∃ t, exec (.angle b0 b1) s = .next t ∧ statusOf t.rsp.rsp0 = .ok ∧
      IsF32Of t.rsp.rsp1 ((((256 * b0.toNat + b1.toNat) % 8192 : Nat) : ℚ) / 16) ∧
      360 ≤ (f32Value t.rsp.rsp1).toRat)

/-- R63: the angle decoder's values are `k * 2^-4` with `k < 2^13` and its output is exact; zero at zero; one step in the
fraction field adds 1/16 degree; strictly increasing in `n[12:0]`; it does not wrap at 360. -/
def Obligations.AngleProperties : Prop :=
  (∀ n : Half, (∃ k : Nat, k < 2 ^ 13 ∧ (angle n).toRat = k * 2 ^ (-4 : Int)) ∧
    IsF32Of (f32Exact (angle n)) (angle n).toRat) ∧
  (angle 0x0000).toRat = 0 ∧
  (∀ n : Half, n.toNat % 16 < 15 → (angle (n + 1)).toRat = (angle n).toRat + 1 / 16) ∧
  (∀ a b : Half, a.toNat % 8192 < b.toNat % 8192 → (angle a).toRat < (angle b).toRat) ∧
  (angle 0x1680).toRat = 360

/-- R64 and R65: TADCT is the unsigned value of the 16-bit pattern, and the temperature is
`25 + (TADCT - 17508) / (601/10)`; TEMP outputs its rounding. -/
def Obligations.TemperatureFormula : Prop :=
  (∀ (b0 b1 : Byte) (s : State), ∃ t, exec (.temp b0 b1) s = .next t ∧
    t.rsp.rsp1 = f32Rne (temp (256 * b1.toNat + b0.toNat))) ∧
  (∀ c : Nat, (temp c).toRat = 25 + ((c : ℚ) - 17508) / (601 / 10) ∧
    (temp c).toRat = 25 + 10 * ((c : ℚ) - 17508) / 601) ∧
  (temp 17508).toRat = 25 ∧ (temp 18109).toRat = 35

/-- Rounding of the temperature (43_temperature.md, rule R66's first two points): the output is the one nearest binary32
value, for every code no other value is as near; and it is exact for the 109 codes `17508 + 601 * k` with k from -29 to 79
and for no other. -/
def Obligations.TemperatureIsNearest : Prop :=
  (∀ c : Nat, c ≤ 65535 → IsUniqueNearestF32 (f32Rne (temp c)) (temp c).toRat) ∧
  (∀ c : Nat, c ≤ 65535 → ((f32Value (f32Rne (temp c))).toRat = (temp c).toRat ↔
    ∃ k : Int, -29 ≤ k ∧ k ≤ 79 ∧ (c : Int) = 17508 + 601 * k))

/-- R68: the temperature is affine with slope 10/601 and strictly increasing, with the two reference values; the binary32
outputs do not decrease; the range. -/
def Obligations.TemperatureProperties : Prop :=
  (∀ c d : Nat, (temp d).toRat - (temp c).toRat = ((d : ℚ) - c) * (10 / 601)) ∧
  (∀ c d : Nat, c < d → (temp c).toRat < (temp d).toRat) ∧
  (temp 17508).toRat = 25 ∧ (temp (17508 + 601)).toRat = 35 ∧
  (∀ c d : Nat, c ≤ d → d ≤ 65535 → (f32Value (f32Rne (temp c))).toRat ≤ (f32Value (f32Rne (temp d))).toRat) ∧
  (∀ c : Nat, c ≤ 65535 → -160055 / 601 ≤ (temp c).toRat ∧ (temp c).toRat ≤ 495295 / 601)

/-- R71: the two magnitude functions: the byte itself, and its decimal digits read as digits of base two. The digit loop
does so for every number with as many decimal digits as it has rounds, so its three rounds end it on a byte. -/
def Obligations.MagnitudeFunctions : Prop :=
  (∀ m : Byte, magdec .raw m = m.toNat ∧ magdec .digitwise m = Nat.ofDigits 2 (Nat.digits 10 m.toNat)) ∧
  (∀ rounds n : Nat, n < 10 ^ rounds → digitLoop rounds 0 0 n = Nat.ofDigits 2 (Nat.digits 10 n))

/-- R73: RAW is the identity; DIGITWISE agrees with it exactly for m up to 9 and is smaller from 10 on, ranges over 0 to 31,
reaches 31 at 199 only, and is neither injective nor monotone; in both modes the result word's bit 31 is clear. -/
def Obligations.MagnitudeProperties : Prop :=
  (∀ m : Byte, magdec .raw m = m.toNat) ∧
  (∀ m : Byte, (magdec .digitwise m = magdec .raw m ↔ m.toNat ≤ 9) ∧
    (10 ≤ m.toNat → magdec .digitwise m < m.toNat) ∧ magdec .digitwise m ≤ 31 ∧
    (magdec .digitwise m = 31 ↔ m.toNat = 199)) ∧
  (∀ v : Nat, v ≤ 31 → ∃ m : Byte, magdec .digitwise m = v) ∧
  magdec .digitwise 2 = 2 ∧ magdec .digitwise 10 = 2 ∧ magdec .digitwise 199 = 31 ∧ magdec .digitwise 200 = 8 ∧
  (∀ (mode : MagMode) (b0 : Byte) (s : State), ∃ t, execMagIn mode b0 s = .next t ∧
    t.rsp.rsp1.toInt = (t.rsp.rsp1.toNat : Int))

/-! ### The step, the host and the order of events -/

/-- R46: the step. A request with bit 7 set or an OP outside 1 to 6 is answered ERR_OP, else one with another length than
required is answered ERR_LEN, else its operation runs; the answer is a function of the request alone, whatever RSP held
before; every step answers a next state. -/
def Obligations.RequestStep : Prop :=
  (∀ r : Request, r.wellFormed = true → (128 ≤ r.cmd.toNat ∨ r.cmd.toNat % 16 = 0 ∨ 7 ≤ r.cmd.toNat % 16) →
    AnswersWith r (rspOf r.cmd 2 0 0 0)) ∧
  (∀ (r : Request) (op : Op), r.wellFormed = true → r.cmd.toNat < 128 → r.cmd.toNat % 16 = op.cmd.toNat % 16 →
    r.cmd.toNat / 16 ≠ op.requiredLen → AnswersWith r (rspOf r.cmd 3 0 0 0)) ∧
  (∀ (i : Instr) (s : State) (p rest : List PortEvent), takes p i.request rest = true → s.port = p ++ rest →
    step s = exec i { s with port := rest }) ∧
  (∀ (i : Instr) (s : State), ∃ t, exec i s = .next t ∧ t.rsp.rsp0.toNat = 256 * i.op.cmd.toNat + 1 ∧
    (i.op ≠ .xyz → t.rsp.rsp2 = 0x00000000 ∧ t.rsp.rsp3 = 0x00000000)) ∧
  (∀ r : Request, r.wellFormed = true → AnswersWith r (answer r)) ∧
  (∀ s : State, ∃ t, step s = .next t)

/-- R33: reading a response word changes no word; a request changes nothing but RSP (in the model: it leaves the port, and
the history gains its response); delivered twice it leaves the same RSP both times. -/
def Obligations.RequestsAreIdempotent : Prop :=
  (∀ (s : State) (p : List PortEvent) (k : Fin 4) (rest : List PortEvent), notStepped p = true →
    s.port = p ++ .read k :: rest → ∃ t, step s = .next t ∧ t.rsp = s.rsp) ∧
  (∀ (s : State) (p : List PortEvent) (r : Request) (rest : List PortEvent), takes p r rest = true → s.port = p ++ rest →
    ∃ t, step s = .next t ∧ t.port = rest ∧ t.trace = .response t.rsp :: s.trace) ∧
  (∀ (s : State) (p q : List PortEvent) (r : Request) (rest : List PortEvent), takes p r (q ++ rest) = true →
    takes q r rest = true → s.port = p ++ (q ++ rest) →
    ∃ t u, step s = .next t ∧ step t = .next u ∧ u.rsp = t.rsp)

/-- A host read returns the word's current value, changes no word and can be repeated with the same value; only a request's
step and reset write RSP, each all four words. The model's choices here: a read that lands between the bytes of a request,
or before the step of a whole one, is served at once and leaves the deliveries where they are (log entry 9), and the
returned word is recorded in the history (log entry 2). -/
def Obligations.HostReadsReturnCurrentWord : Prop :=
  (∀ (s : State) (p : List PortEvent) (k : Fin 4) (rest : List PortEvent), notStepped p = true →
    s.port = p ++ .read k :: rest →
    step s = .next ⟨s.rsp, p ++ rest,
      .readOut k (([s.rsp.rsp0, s.rsp.rsp1, s.rsp.rsp2, s.rsp.rsp3] : List Word).getD k.val 0) :: s.trace⟩) ∧
  (∀ (s : State) (p : List PortEvent) (k : Fin 4) (rest : List PortEvent), notStepped p = true →
    s.port = p ++ .read k :: .read k :: rest →
    ∃ t u w, step s = .next t ∧ step t = .next u ∧ u.trace = .readOut k w :: .readOut k w :: s.trace ∧ u.rsp = s.rsp) ∧
  (∀ s t : State, step s = .next t → t.rsp ≠ s.rsp →
    (∃ (p : List PortEvent) (r : Request) (rest : List PortEvent), takes p r rest = true ∧ s.port = p ++ rest ∧
      t.rsp = answer r) ∨
    (∃ p rest : List PortEvent, notStepped p = true ∧ s.port = p ++ .reset :: rest ∧
      t.rsp = ⟨0x00000000, 0x00000000, 0x00000000, 0x00000000⟩))

/-- Requests are processed one at a time in the order delivered, each with all its words written before the next begins,
and a host read between two of their steps returns exactly the response of the first. For every script of requests, each
stepped before any number of reads that follow it, the run over it leaves the history: response, its reads, response, its
reads, and so on. The history is the model's own field (log entry 2), and that it is in this order is what the statement
says. -/
def Obligations.RequestsAndReadsInOrder : Prop :=
  ∀ (script : List (Request × List (Fin 4))) (s : State) (rest : List PortEvent),
    (∀ x ∈ script, x.1.wellFormed = true) →
    s.port = script.flatMap (fun x => asEvents x.1.bytes ++ x.2.map PortEvent.read) ++ rest →
    ∃ t, core.run (script.map fun x => 1 + x.2.length).sum s = .next t ∧ t.port = rest ∧
      t.trace = (script.flatMap fun x =>
        .response (answer x.1) :: x.2.map fun k => .readOut k ((answer x.1).word k)).reverse ++ s.trace

/-- R87: reset falls between two steps and clears RSP; a request begun and not stepped is discarded and no response is
produced for it, one that is not whole and a whole one whose step has not happened when the reset lands; after reset, with
nothing sent, SDEC waits. The parameters are constants of Config that no step changes. -/
def Obligations.ResetDiscardsStartedRequest : Prop :=
  (∀ (s : State) (p rest : List PortEvent), notStepped p = true → s.port = p ++ .reset :: rest →
    step s = .next ⟨⟨0x00000000, 0x00000000, 0x00000000, 0x00000000⟩, rest, .wasReset :: s.trace⟩) ∧
  (∀ (s : State) (bs : List Byte) (rest : List PortEvent), frameRequest bs = none →
    s.port = asEvents bs ++ .reset :: rest →
    step s = .next ⟨⟨0x00000000, 0x00000000, 0x00000000, 0x00000000⟩, rest, .wasReset :: s.trace⟩) ∧
  (∀ (s : State) (r : Request) (bs : List Byte) (b : Byte) (rest : List PortEvent), r.wellFormed = true →
    r.bytes = bs ++ [b] → s.port = asEvents bs ++ .heldByte b :: .reset :: rest →
    step s = .next ⟨⟨0x00000000, 0x00000000, 0x00000000, 0x00000000⟩, rest, .wasReset :: s.trace⟩) ∧
  step State.reset = .next State.reset

/-- R88: SDEC accepts a request at once after reset, and R46 holds of it: the operation runs at the state past its bytes and
answers OK, an illegal command byte is answered ERR_OP and a length mismatch ERR_LEN. A host that reads RSP0 before its
first request sees IDLE. -/
def Obligations.ReadyAtOnceAfterReset : Prop :=
  (∀ (s : State) (p rest : List PortEvent), notStepped p = true → s.port = p ++ .reset :: rest →
    ∃ t, step s = .next t ∧ t.port = rest ∧ AfterReset t) ∧
  (∀ (t : State) (i : Instr) (p rest : List PortEvent), AfterReset t → takes p i.request rest = true →
    t.port = p ++ rest → ∃ u, step t = exec i { t with port := rest } ∧ step t = .next u ∧
      statusOf u.rsp.rsp0 = .ok ∧ u.port = rest ∧ u.trace = .response u.rsp :: t.trace) ∧
  (∀ (t : State) (r : Request) (p rest : List PortEvent), AfterReset t → takes p r rest = true → t.port = p ++ rest →
    (128 ≤ r.cmd.toNat ∨ r.cmd.toNat % 16 = 0 ∨ 7 ≤ r.cmd.toNat % 16) →
    step t = .next ⟨rspOf r.cmd 2 0 0 0, rest, .response (rspOf r.cmd 2 0 0 0) :: t.trace⟩) ∧
  (∀ (t : State) (r : Request) (op : Op) (p rest : List PortEvent), AfterReset t → takes p r rest = true →
    t.port = p ++ rest → r.cmd.toNat < 128 → r.cmd.toNat % 16 = op.cmd.toNat % 16 →
    r.cmd.toNat / 16 ≠ op.requiredLen →
    step t = .next ⟨rspOf r.cmd 3 0 0 0, rest, .response (rspOf r.cmd 3 0 0 0) :: t.trace⟩) ∧
  (∀ (t : State) (p rest : List PortEvent), AfterReset t → notStepped p = true → t.port = p ++ .read 0 :: rest →
    ∃ u w, step t = .next u ∧ u.trace = .readOut 0 w :: t.trace ∧ statusOf w = .idle) ∧
  (∀ (s : State) (rest : List PortEvent), s.port = .reset :: .read 0 :: rest →
    ∃ t u w, step s = .next t ∧ step t = .next u ∧ u.trace = .readOut 0 w :: .wasReset :: s.trace ∧
      statusOf w = .idle)

/-- R14: the layout of RSP0 after any request: STATUS in bits 1:0 is one of 1, 2, 3, CMD in bits 15:8 is the request's
command byte, and the reserved bits 7:2 and 31:16 are zero; after reset all of it is zero. -/
def Obligations.StatusWordLayout : Prop :=
  (∀ (s : State) (p : List PortEvent) (r : Request) (rest : List PortEvent), takes p r rest = true → s.port = p ++ rest →
    ∃ t, step s = .next t ∧ 1 ≤ t.rsp.rsp0.toNat % 4 ∧ t.rsp.rsp0.toNat / 4 % 64 = 0 ∧
      t.rsp.rsp0.toNat / 256 % 256 = r.cmd.toNat ∧ t.rsp.rsp0.toNat / 65536 = 0) ∧
  State.reset.rsp.rsp0 = 0x00000000

/-- R15: the meaning of STATUS. A request leaves OK, ERR_OP or ERR_LEN as its decoding says, never IDLE; and in every state
that meets the invariant STATUS reads IDLE exactly when no response has been written since the last reset. -/
def Obligations.StatusMeaning : Prop :=
  (∀ (s : State) (p : List PortEvent) (r : Request) (rest : List PortEvent), takes p r rest = true → s.port = p ++ rest →
    ∃ t, step s = .next t ∧ (statusOf t.rsp.rsp0 = .ok ↔ ∃ i, decodeRequest r.cmd r.data = .ok i) ∧
      (statusOf t.rsp.rsp0 = .errOp ↔ IllegalCmd r.cmd) ∧ (statusOf t.rsp.rsp0 = .errLen ↔ MismatchedCmd r.cmd) ∧
      statusOf t.rsp.rsp0 ≠ .idle) ∧
  (∀ s : State, s.Inv → (statusOf s.rsp.rsp0 = .idle ↔ respondedSinceReset s.trace = false)) ∧
  (∀ w : Word, (statusOf w = .idle ↔ w.toNat % 4 = 0) ∧ (statusOf w = .ok ↔ w.toNat % 4 = 1) ∧
    (statusOf w = .errOp ↔ w.toNat % 4 = 2) ∧ (statusOf w = .errLen ↔ w.toNat % 4 = 3))

/-- Nothing is left unserved (20_memory.md, 70_reset_and_hazards.md: "every request steps"): after as many steps as the port
holds events, it holds no read, no reset and no whole request, at most the bytes of a request that is not whole. The port
is the model's own field (log entry 1), with such bytes alone SDEC waits (log entry 3), and which act lands first is in the
port (log entry 9). -/
def Obligations.PortIsDrained : Prop :=
  ∀ s : State, ∃ t, core.run s.port.length s = .next t ∧ onlyDeliveries t.port = true ∧
    frameRequest (delivered t.port) = none

/-- An axis of XYZ is what FIELD answers for its two bytes, and depends on no other byte of the burst. -/
def Obligations.XyzAxesAreFields : Prop :=
  ∀ (b0 b1 b2 b3 b4 b5 b6 : Byte) (s : State), ∃ t x y z, exec (.xyz b0 b1 b2 b3 b4 b5 b6) s = .next t ∧
    exec (.field b0 b1) s = .next x ∧ exec (.field b2 b3) s = .next y ∧ exec (.field b4 b5) s = .next z ∧
    t.rsp.rsp1 = x.rsp.rsp1 ∧ t.rsp.rsp2 = y.rsp.rsp1 ∧ t.rsp.rsp3 = z.rsp.rsp1

/-! ### The assembler -/

/-- What the assembler emits and rejects (30_encoding.md, rule R47's lines and programs). A mnemonic line with its
operation's number of byte literals gives the operation's encoding; `.cmd` gives its bytes when the count is the announced
one; a program gives the bytes of its lines in order, which are whole requests. Every other line of these two kinds is
rejected, and a pseudo-instruction line with another count or a literal beyond its width. The model's choices (log entry
11): that a literal beyond its width and a `.cmd` line of another count are rejected, as the rule says of a mnemonic line
of another count, and that one rejected line makes the whole program fail. -/
def Obligations.AssembledProgramsAreRequests : Prop :=
  (∀ (o : Op) (ns : List Nat), (ns.length = o.requiredLen ∧ ∀ n ∈ ns, n < 256) →
    ∃ i : Instr, i.op = o ∧ i.operands = ns.map (BitVec.ofNat 8) ∧ assembleLine (.op o ns) = some (encode i)) ∧
  (∀ (o : Op) (ns : List Nat), ¬ (ns.length = o.requiredLen ∧ ∀ n ∈ ns, n < 256) → assembleLine (.op o ns) = none) ∧
  (∀ (c : Nat) (ns : List Nat), c < 256 → (∀ n ∈ ns, n < 256) → ns.length = c / 16 % 8 →
    assembleLine (.raw c ns) = some ((c :: ns).map (BitVec.ofNat 8))) ∧
  (∀ (c : Nat) (ns : List Nat), ¬ (c < 256 ∧ (∀ n ∈ ns, n < 256) ∧ ns.length = c / 16 % 8) →
    assembleLine (.raw c ns) = none) ∧
  (∀ (q : Pseudo) (ns : List Nat), q ≠ .xyzW → ¬ (ns.length = 1 ∧ ∀ n ∈ ns, n < 65536) →
    assembleLine (.pseudo q ns) = none) ∧
  (∀ ns : List Nat, (∀ x y z st : Nat, ns = [x, y, z, st] → ¬ (x < 65536 ∧ y < 65536 ∧ z < 65536 ∧ st < 256)) →
    assembleLine (.pseudo .xyzW ns) = none) ∧
  (∀ ls : List AsmLine, assemble ls = none ↔ ∃ l ∈ ls, assembleLine l = none) ∧
  (∀ (ls : List AsmLine) (bs : List Byte), assemble ls = some bs →
    ls.flatMap (fun l => (assembleLine l).getD []) = bs ∧
    (frameAll bs).flatMap Request.bytes = bs ∧ ∀ r ∈ frameAll bs, r.wellFormed = true)

/-- The pseudo-instructions (30_encoding.md, rule R47's list): each assembles to its byte form. -/
def Obligations.PseudoInstructionsExpand : Prop :=
  ∀ n x y z : Half, ∀ s : Byte,
    let hi (v : Half) : Byte := v.extractLsb' 8 8
    let lo (v : Half) : Byte := v.extractLsb' 0 8
    assembleLine (.pseudo .angleW [n.toNat]) = some (encode (.angle (hi n) (lo n))) ∧
    assembleLine (.pseudo .fieldW [n.toNat]) = some (encode (.field (hi n) (lo n))) ∧
    assembleLine (.pseudo .xyzW [x.toNat, y.toNat, z.toNat, s.toNat]) =
      some (encode (.xyz (hi x) (lo x) (hi y) (lo y) (hi z) (lo z) s)) ∧
    assembleLine (.pseudo .tempW [n.toNat]) = some (encode (.temp (lo n) (hi n))) ∧
    assembleLine (.pseudo .id16W [n.toNat]) = some (encode (.id16 (lo n) (hi n)))
end

