-- ==== Sys2Proof/Laws/Decode.lean ====
section
/-! SUPPORT. What the decoder's parts answer: the fields of a valid command byte, the operands of an operation, and the
framing of a request. -/

namespace Sys2Proof

@[simp] theorem cmdRsv_cmd (op : Op) : cmdRsv op.cmd = false := by cases op <;> decide
@[simp] theorem opOfNibble_cmd (op : Op) : opOfNibble (cmdOp op.cmd) = some op := by cases op <;> decide
@[simp] theorem cmdLen_cmd (op : Op) : cmdLen op.cmd = op.requiredLen := by cases op <;> decide

theorem Instr.operands_length (i : Instr) : i.operands.length = i.op.requiredLen := by cases i <;> rfl

@[simp] theorem Instr.wellFormed_eq_true (i : Instr) : i.wellFormed = true := by
  simp [Instr.wellFormed, i.operands_length]

/-! ### The fields as numbers -/

theorem cmdRsv_eq (cmd : Byte) : cmdRsv cmd = decide (128 ≤ cmd.toNat) := by
  have h := cmd.isLt
  rw [cmdRsv, BitVec.getLsbD, Nat.testBit_eq_decide_div_mod_eq]
  simp only [decide_eq_decide]
  omega

theorem cmdOp_toNat (cmd : Byte) : (cmdOp cmd).toNat = cmd.toNat % 16 := by
  simp [cmdOp]

theorem cmdLen_eq (cmd : Byte) : cmdLen cmd = cmd.toNat / 16 % 8 := by
  simp [cmdLen, Nat.shiftRight_eq_div_pow]

theorem opOfNibble_eq_none (n : BitVec 4) : opOfNibble n = none ↔ n.toNat = 0 ∨ 7 ≤ n.toNat := by
  revert n
  decide

theorem opOfNibble_eq_some (n : BitVec 4) (op : Op) : opOfNibble n = some op ↔ n.toNat = op.cmd.toNat % 16 := by
  revert n
  cases op <;> decide

/-- A command byte is its three fields (R39). -/
theorem cmd_ext {a b : Byte} (h1 : cmdRsv a = cmdRsv b) (h2 : cmdOp a = cmdOp b) (h3 : cmdLen a = cmdLen b) : a = b := by
  have ha := a.isLt
  have hb := b.isLt
  have h2' := congrArg BitVec.toNat h2
  simp only [cmdRsv, BitVec.getLsbD, Nat.testBit_eq_decide_div_mod_eq, decide_eq_decide] at h1
  simp only [cmdOp, BitVec.extractLsb'_toNat, Nat.shiftRight_zero] at h2'
  simp only [cmdLen, BitVec.extractLsb'_toNat, Nat.shiftRight_eq_div_pow] at h3
  apply BitVec.eq_of_toNat_eq
  omega

/-- The operands of an operation are its instruction's data bytes, and nothing else makes that instruction. -/
theorem instrOf_eq_some {op : Op} {data : List Byte} {i : Instr} :
    instrOf op data = some i ↔ i.op = op ∧ i.operands = data := by
  constructor
  · intro h
    unfold instrOf at h
    split at h <;> cases h <;> exact ⟨rfl, rfl⟩
  · rintro ⟨rfl, rfl⟩
    cases i <;> rfl

/-- With the required number of data bytes there is an instruction. -/
theorem instrOf_isSome {op : Op} {data : List Byte} (h : data.length = op.requiredLen) :
    ∃ i, instrOf op data = some i := by
  cases op <;> simp only [Op.requiredLen] at h
  case angle | field | temp | id16 =>
    obtain ⟨b0, b1, rfl⟩ := List.length_eq_two.1 h
    exact ⟨_, rfl⟩
  case mag =>
    obtain ⟨b0, rfl⟩ := List.length_eq_one_iff.1 h
    exact ⟨_, rfl⟩
  case xyz =>
    match data, h with
    | [b0, b1, b2, b3, b4, b5, b6], _ => exact ⟨_, rfl⟩

/-- The three outcomes of the checks of R46, for a request as long as its command byte announces. -/
theorem decodeRequest_cases (r : Request) (h : r.wellFormed = true) :
    (decodeRequest r.cmd r.data = .error .errOp ∧ (cmdRsv r.cmd = true ∨ opOfNibble (cmdOp r.cmd) = none)) ∨
    (decodeRequest r.cmd r.data = .error .errLen ∧ cmdRsv r.cmd = false ∧
      ∃ op, opOfNibble (cmdOp r.cmd) = some op ∧ cmdLen r.cmd ≠ op.requiredLen) ∨
    (∃ i, decodeRequest r.cmd r.data = .ok i ∧ r = i.request) := by
  have hl : r.data.length = cmdLen r.cmd := by simpa [Request.wellFormed] using h
  unfold decodeRequest
  by_cases hr : cmdRsv r.cmd = true
  · exact .inl ⟨by simp [hr], .inl hr⟩
  have hr' : cmdRsv r.cmd = false := by simpa using hr
  rw [if_neg hr]
  cases ho : opOfNibble (cmdOp r.cmd) with
  | none => exact .inl ⟨rfl, .inr rfl⟩
  | some op =>
    by_cases hq : cmdLen r.cmd = op.requiredLen
    · obtain ⟨i, hi⟩ := instrOf_isSome (op := op) (data := r.data) (hl.trans hq)
      obtain ⟨hop, hdat⟩ := instrOf_eq_some.1 hi
      refine .inr (.inr ⟨i, by simp [hq, hi], ?_⟩)
      have hc : r.cmd = op.cmd := cmd_ext (by simp [hr']) (by
        have h5 := opOfNibble_cmd op
        have : ∀ x y : BitVec 4, opOfNibble x = some op → opOfNibble y = some op → x = y := by
          cases op <;> decide
        exact this _ _ ho h5) (by simp [hq])
      cases r
      simp only at hc hdat
      simp only [Instr.request, hop, hc, hdat]
    · exact .inr (.inl ⟨by simp [hq], hr', op, rfl, hq⟩)

/-- An instruction's own request decodes to it. -/
theorem decodeRequest_request (i : Instr) : decodeRequest i.request.cmd i.request.data = .ok i := by
  have h : instrOf i.op i.operands = some i := instrOf_eq_some.2 ⟨rfl, rfl⟩
  simp [decodeRequest, Instr.request, h]

theorem Instr.request_wellFormed (i : Instr) : i.request.wellFormed = true := by
  simp [Request.wellFormed, Instr.request, i.operands_length]

/-! ### Framing -/

/-- A whole request is framed, and the bytes after it are left. -/
theorem frameRequest_append {r : Request} (h : r.wellFormed = true) (more : List Byte) :
    frameRequest (r.bytes ++ more) = some (r, more) := by
  have hl : r.data.length = cmdLen r.cmd := by simpa [Request.wellFormed] using h
  simp [frameRequest, Request.bytes, ← hl]

/-- A framed request is as long as its command byte announces, and the stream was its bytes and the rest. -/
theorem frameRequest_eq_some {bs : List Byte} {r : Request} {more : List Byte} (h : frameRequest bs = some (r, more)) :
    r.wellFormed = true ∧ bs = r.bytes ++ more := by
  cases bs with
  | nil => simp [frameRequest] at h
  | cons cmd data =>
    simp only [frameRequest] at h
    split at h
    · rename_i hle
      cases h
      simp [Request.wellFormed, Request.bytes, hle]
    · cases h

/-- A stream too short for its first request stays too short when it is cut. -/
theorem frameRequest_none_of_append {bs more : List Byte} (h : frameRequest (bs ++ more) = none) :
    frameRequest bs = none := by
  cases hb : frameRequest bs with
  | none => rfl
  | some p =>
    obtain ⟨hw, rfl⟩ := frameRequest_eq_some (r := p.1) (more := p.2) hb
    rw [List.append_assoc, frameRequest_append hw] at h
    cases h

/-- A proper beginning of a request is not framed. -/
theorem frameRequest_none_of_prefix {r : Request} (h : r.wellFormed = true) {bs more : List Byte} (hm : more ≠ [])
    (hb : bs ++ more = r.bytes) : frameRequest bs = none := by
  cases hf : frameRequest bs with
  | none => rfl
  | some p =>
    obtain ⟨hw, rfl⟩ := frameRequest_eq_some (r := p.1) (more := p.2) hf
    have h1 := frameRequest_append h []
    rw [List.append_nil, ← hb, List.append_assoc, frameRequest_append hw] at h1
    simp at h1
    exact absurd h1.2.2 hm

/-- The byte that makes a request whole is its last. -/
theorem frameRequest_snoc {bs : List Byte} {b : Byte} {r : Request} {more : List Byte} (hn : frameRequest bs = none)
    (h : frameRequest (bs ++ [b]) = some (r, more)) : r.wellFormed = true ∧ more = [] ∧ bs ++ [b] = r.bytes := by
  obtain ⟨hw, hb⟩ := frameRequest_eq_some h
  rcases List.eq_nil_or_concat more with rfl | ⟨more, x, rfl⟩
  · exact ⟨hw, rfl, by simpa using hb⟩
  · rw [List.concat_eq_append, ← List.append_assoc] at hb
    rw [(List.append_inj' hb rfl).1, frameRequest_append hw] at hn
    cases hn

theorem encode_eq_bytes (i : Instr) : encode i = i.request.bytes := rfl

end Sys2Proof
end

