-- ==== Sys2Proof/Laws/Exact.lean ====
section
/-! SUPPORT. Fraction arithmetic is exact: it is the arithmetic of ℚ. -/

namespace Sys2Proof

@[simp] theorem Frac.toRat_ofInt (z : Int) : (Frac.ofInt z).toRat = z := by
  simp [Frac.toRat, Frac.ofInt]

@[simp] theorem Frac.ofInt_den (z : Int) : (Frac.ofInt z).den = 1 := rfl

theorem Frac.toRat_add {a b : Frac} (ha : a.den ≠ 0) (hb : b.den ≠ 0) : (a.add b).toRat = a.toRat + b.toRat := by
  have ha' : (a.den : ℚ) ≠ 0 := by exact_mod_cast ha
  have hb' : (b.den : ℚ) ≠ 0 := by exact_mod_cast hb
  simp only [Frac.toRat, Frac.add]
  push_cast
  field_simp

theorem Frac.toRat_mul (a b : Frac) : (a.mul b).toRat = a.toRat * b.toRat := by
  simp only [Frac.toRat, Frac.mul]
  push_cast
  rw [div_mul_div_comm]

theorem Frac.toRat_div {a b : Frac} (hb : b.num ≠ 0) : (a.div b).toRat = a.toRat / b.toRat := by
  have hb' : (b.num : ℚ) ≠ 0 := by exact_mod_cast hb
  have key : (b.num.sign : ℚ) * b.num = (b.num.natAbs : ℚ) := by
    have h := Int.sign_mul_self_eq_natAbs b.num
    rw [← Int.cast_natCast, ← h, Int.cast_mul]
  have habs : (b.num.natAbs : ℚ) ≠ 0 := by
    have : b.num.natAbs ≠ 0 := by omega
    exact_mod_cast this
  simp only [Frac.toRat, Frac.div]
  push_cast
  rw [← key] at habs ⊢
  have hs : (b.num.sign : ℚ) ≠ 0 := left_ne_zero_of_mul habs
  by_cases ha : (a.den : ℚ) = 0
  · simp [ha]
  by_cases hd : (b.den : ℚ) = 0
  · simp [hd]
  field_simp

theorem Frac.add_den_ne_zero {a b : Frac} (ha : a.den ≠ 0) (hb : b.den ≠ 0) : (a.add b).den ≠ 0 :=
  Nat.mul_ne_zero ha hb

theorem Frac.mul_den_ne_zero {a b : Frac} (ha : a.den ≠ 0) (hb : b.den ≠ 0) : (a.mul b).den ≠ 0 :=
  Nat.mul_ne_zero ha hb

theorem Frac.div_den_ne_zero {a b : Frac} (ha : a.den ≠ 0) (hb : b.num ≠ 0) : (a.div b).den ≠ 0 :=
  Nat.mul_ne_zero ha (by omega)

/-- A single bit is 0 or 1. -/
theorem bitAt_eq (n : Half) (i : Nat) : bitAt n i = n.toNat / 2 ^ i % 2 := by
  simp [bitAt, Nat.shiftRight_eq_div_pow, Nat.and_one_is_mod]

/-- The weighted sum of the low bits is the pattern's value modulo `2 ^ k`. -/
theorem bitSum_eq (n : Half) (k : Nat) : bitSum n k = n.toNat % 2 ^ k := by
  induction k with
  | zero => simp [bitSum, Nat.mod_one]
  | succ k ih =>
    rw [bitSum, ih, bitAt_eq, Nat.pow_succ, Nat.mod_mul, Nat.mul_comm (2 ^ k)]

end Sys2Proof
end

