-- ==== Sys2Proof/Laws/Float.lean ====
section
/-! SUPPORT. What rounding to binary32 does: in the normal range `f32Rne` answers a finite pattern whose value is the
scaled nearest integer, so it is exact on representable values and nearest on all others. -/

namespace Sys2Proof

theorem two_zpow_eq (e : Int) : (2 : ℚ) ^ e = 2 ^ e.toNat / 2 ^ (-e).toNat := by
  rcases Int.le_total 0 e with h | h
  · obtain ⟨n, rfl⟩ := Int.eq_ofNat_of_zero_le h
    simp
  · obtain ⟨n, hn⟩ := Int.eq_ofNat_of_zero_le (by omega : 0 ≤ -e)
    have : e = -(n : Int) := by omega
    subst this
    simp

/-- The test `floorLog2` makes is a comparison with a power of two. -/
theorem pow_test (m d : Nat) (e : Int) :
    d * 2 ^ e.toNat ≤ m * 2 ^ (-e).toNat ↔ (2 : ℚ) ^ e * d ≤ m := by
  rw [two_zpow_eq, div_mul_eq_mul_div, div_le_iff₀ (by positivity), mul_comm ((2 : ℚ) ^ e.toNat)]
  exact_mod_cast Iff.rfl

/-- `floorLog2` is the exponent of the power of two just below the ratio. -/
theorem floorLog2_spec {m d : Nat} (hm : m ≠ 0) (hd : d ≠ 0) :
    (2 : ℚ) ^ floorLog2 m d ≤ m / d ∧ (m : ℚ) / d < 2 ^ (floorLog2 m d + 1) := by
  have hd' : (0 : ℚ) < d := by exact_mod_cast Nat.pos_of_ne_zero hd
  have hm1 : ((2 : ℚ)) ^ (m.log2 : Int) ≤ m := by
    rw [zpow_natCast]; exact_mod_cast Nat.log2_self_le hm
  have hm2 : (m : ℚ) < (2 : ℚ) ^ ((m.log2 : Int) + 1) := by
    rw [← Nat.cast_one, ← Nat.cast_add, zpow_natCast]; exact_mod_cast Nat.lt_log2_self
  have hd1 : ((2 : ℚ)) ^ (d.log2 : Int) ≤ d := by
    rw [zpow_natCast]; exact_mod_cast Nat.log2_self_le hd
  have hd2 : (d : ℚ) < (2 : ℚ) ^ ((d.log2 : Int) + 1) := by
    rw [← Nat.cast_one, ← Nat.cast_add, zpow_natCast]; exact_mod_cast Nat.lt_log2_self
  have two : (2 : ℚ) ≠ 0 := by norm_num
  rw [le_div_iff₀ hd', div_lt_iff₀ hd']
  unfold floorLog2
  simp only
  split
  · rename_i h
    rw [pow_test] at h
    refine ⟨h, hm2.trans_le ?_⟩
    calc (2 : ℚ) ^ ((m.log2 : Int) + 1) = 2 ^ ((m.log2 : Int) - d.log2 + 1) * 2 ^ (d.log2 : Int) := by
          rw [← zpow_add₀ two]; congr 1; ring
      _ ≤ _ := by gcongr
  · rename_i h
    rw [pow_test, not_le] at h
    refine ⟨?_, by rwa [sub_add_cancel]⟩
    calc (2 : ℚ) ^ ((m.log2 : Int) - d.log2 - 1) * d
        ≤ 2 ^ ((m.log2 : Int) - d.log2 - 1) * 2 ^ ((d.log2 : Int) + 1) := by gcongr
      _ = 2 ^ (m.log2 : Int) := by rw [← zpow_add₀ two]; congr 1; ring
      _ ≤ m := hm1

/-- `roundNearestEven` is within one half of the quotient. -/
theorem roundNearestEven_near (n : Nat) {d : Nat} (hd : d ≠ 0) :
    |(roundNearestEven n d : ℚ) - n / d| ≤ 1 / 2 := by
  have hd' : (0 : ℚ) < d := by exact_mod_cast Nat.pos_of_ne_zero hd
  have hr : n % d < d := Nat.mod_lt _ (Nat.pos_of_ne_zero hd)
  have hn : (n : ℚ) = d * (n / d : Nat) + (n % d : Nat) := by exact_mod_cast (Nat.div_add_mod n d).symm
  have hx : (n : ℚ) / d = (n / d : Nat) + (n % d : Nat) / d := by
    rw [div_eq_iff hd'.ne', hn]; field_simp
  have h0 : (0 : ℚ) ≤ (n % d : Nat) / d := by positivity
  rw [hx]
  unfold roundNearestEven
  simp only
  split
  · rename_i h
    have : ((n % d : Nat) : ℚ) / d ≤ 1 / 2 := by
      rw [div_le_iff₀ hd']; have : 2 * ((n % d : Nat) : ℚ) < d := by exact_mod_cast h
      linarith
    rw [abs_le]; constructor <;> linarith
  · rename_i h
    have h1 : ((n % d : Nat) : ℚ) / d < 1 := by rw [div_lt_one hd']; exact_mod_cast hr
    split
    · have : (1 / 2 : ℚ) ≤ (n % d : Nat) / d := by
        rw [le_div_iff₀ hd']; have : (d : ℚ) ≤ 2 * ((n % d : Nat) : ℚ) := by exact_mod_cast Nat.not_lt.mp h
        linarith
      push_cast at *
      rw [abs_le]; constructor <;> linarith
    · rename_i h2
      have h3 : ((n % d : Nat) : ℚ) / d = 1 / 2 := by
        rw [div_eq_iff hd'.ne']; have : 2 * ((n % d : Nat) : ℚ) = d := by exact_mod_cast (by omega : 2 * (n % d) = d)
        linarith
      rw [h3]
      rcases Nat.mod_two_eq_zero_or_one (n / d) with h4 | h4 <;> rw [h4] <;> push_cast <;> rw [abs_le] <;>
        constructor <;> linarith

/-- Bounds by powers of two bound the exponent. -/
theorem floorLog2_bounds {m d : Nat} (hm : m ≠ 0) (hd : d ≠ 0) {a b : Int} (ha : (2 : ℚ) ^ a ≤ m / d)
    (hb : (m : ℚ) / d < 2 ^ b) : a ≤ floorLog2 m d ∧ floorLog2 m d < b := by
  obtain ⟨h1, h2⟩ := floorLog2_spec hm hd
  have two : (1 : ℚ) < 2 := by norm_num
  constructor
  · have := (zpow_lt_zpow_iff_right₀ two).1 (ha.trans_lt h2)
    omega
  · exact (zpow_lt_zpow_iff_right₀ two).1 (h1.trans_lt hb)

/-! ### The fields of a pattern -/

theorem f32Exponent_eq (w : Word) : f32Exponent w = w.toNat / 2 ^ 23 % 256 := by
  simp [f32Exponent, Nat.shiftRight_eq_div_pow]

theorem f32Fraction_eq (w : Word) : f32Fraction w = w.toNat % 2 ^ 23 := by
  simp [f32Fraction]

theorem f32Sign_eq (w : Word) : w.getLsbD 31 = decide (2 ^ 31 ≤ w.toNat) := by
  have h := w.isLt
  rw [BitVec.getLsbD, Nat.testBit_eq_decide_div_mod_eq]
  simp only [decide_eq_decide]
  omega

/-- The sign a pattern gives its value. -/
def f32SignOf (w : Word) : ℚ := if w.getLsbD 31 then -1 else 1

/-- The value of a pattern, in ℚ. -/
theorem f32Value_toRat (w : Word) :
    (f32Value w).toRat = f32SignOf w * f32Significand w * 2 ^ ((max (f32Exponent w) 1 : Nat) - 150 : Int) := by
  have key : ∀ (ex : Nat) (m : Nat), (((m * 2 ^ (ex - 150) : Nat) : ℚ)) / ((2 ^ (150 - ex) : Nat) : ℚ)
      = m * 2 ^ ((ex : Int) - 150) := by
    intro ex m
    rw [two_zpow_eq]
    have h1 : ((ex : Int) - 150).toNat = ex - 150 := by omega
    have h2 : (-((ex : Int) - 150)).toNat = 150 - ex := by omega
    rw [h1, h2]
    push_cast
    ring
  rw [mul_assoc, ← key]
  unfold f32Value f32SignOf Frac.toRat
  simp only
  split <;> push_cast <;> ring

/-! ### Rounding in the normal range -/

/-- What `f32Rne` answers in the normal range: the value is the nearest integer `k` to the ratio scaled to 24 bits,
scaled back. -/
theorem f32Rne_normal (q : Frac) (hn : q.num ≠ 0) (hd : q.den ≠ 0)
    (h1 : -126 ≤ floorLog2 q.num.natAbs q.den) (h2 : floorLog2 q.num.natAbs q.den ≤ 126) :
    ∃ k : Nat, 2 ^ 23 ≤ k ∧
      |(k : ℚ) - |q.toRat| * 2 ^ (23 - floorLog2 q.num.natAbs q.den)| ≤ 1 / 2 ∧
      f32Finite (f32Rne q) = true ∧ f32Rne q ≠ 0x80000000 ∧
      (f32Value (f32Rne q)).toRat = (if q.num < 0 then -1 else 1) * k * 2 ^ (floorLog2 q.num.natAbs q.den - 23) := by
  have hm : q.num.natAbs ≠ 0 := by omega
  have habs : |q.toRat| = (q.num.natAbs : ℚ) / q.den := by
    rw [Frac.toRat, abs_div, Nat.abs_cast, Nat.cast_natAbs, Int.cast_abs]
  obtain ⟨lo, hi⟩ := floorLog2_spec hm hd
  have hmag : f32Magnitude q.num.natAbs q.den =
      min ((floorLog2 q.num.natAbs q.den + 126).toNat * 2 ^ 23 +
        roundNearestEven (q.num.natAbs * 2 ^ (23 - floorLog2 q.num.natAbs q.den).toNat)
          (q.den * 2 ^ (-(23 - floorLog2 q.num.natAbs q.den)).toNat)) 0x7F800000 := by
    unfold f32Magnitude
    rw [if_neg hm, max_eq_left h1]
  rw [habs]
  generalize floorLog2 q.num.natAbs q.den = e at *
  generalize hN : q.num.natAbs * 2 ^ (23 - e).toNat = N at *
  generalize hD : q.den * 2 ^ (-(23 - e)).toNat = D at *
  have hD0 : D ≠ 0 := by rw [← hD]; positivity
  have hx : (N : ℚ) / D = (q.num.natAbs : ℚ) / q.den * 2 ^ (23 - e) := by
    rw [two_zpow_eq (23 - e), ← hN, ← hD]
    push_cast
    rw [mul_div_mul_comm]
  have near := roundNearestEven_near N hD0
  rw [hx] at near
  have two : (2 : ℚ) ≠ 0 := by norm_num
  have xlo : (2 : ℚ) ^ 23 ≤ (q.num.natAbs : ℚ) / q.den * 2 ^ (23 - e) := by
    calc (2 : ℚ) ^ 23 = 2 ^ e * 2 ^ (23 - e) := by
          rw [← zpow_add₀ two]; norm_num [show e + (23 - e) = 23 by ring]
      _ ≤ _ := by gcongr
  have xhi : (q.num.natAbs : ℚ) / q.den * 2 ^ (23 - e) < 2 ^ 24 := by
    calc (q.num.natAbs : ℚ) / q.den * 2 ^ (23 - e) < 2 ^ (e + 1) * 2 ^ (23 - e) := by gcongr
      _ = 2 ^ 24 := by
          rw [← zpow_add₀ two]; norm_num [show e + 1 + (23 - e) = 24 by ring]
  generalize hk : roundNearestEven N D = k at *
  rw [abs_le] at near
  have klo : 2 ^ 23 ≤ k := by
    have : (2 : ℚ) ^ 23 - 1 < k := by linarith
    have : (2 : ℚ) ^ 23 < (k : ℚ) + 1 := by linarith
    exact_mod_cast Nat.lt_succ_iff.mp (by exact_mod_cast this)
  have khi : k ≤ 2 ^ 24 := by
    have : (k : ℚ) < 2 ^ 24 + 1 := by linarith
    exact Nat.lt_succ_iff.mp (by exact_mod_cast this)
  obtain ⟨E, hE⟩ : ∃ E : Nat, (e + 126).toNat = E := ⟨_, rfl⟩
  have hEe : (E : Int) = e + 126 := by omega
  have hE2 : E ≤ 252 := by omega
  have hP : f32Magnitude q.num.natAbs q.den = E * 2 ^ 23 + k := by
    rw [hmag, hE]
    have bound : E * 2 ^ 23 + k ≤ 0x7F800000 := by
      calc E * 2 ^ 23 + k ≤ 252 * 2 ^ 23 + 2 ^ 24 := by gcongr
        _ ≤ 0x7F800000 := by norm_num
    exact Nat.min_eq_left bound
  have hwN : (f32Rne q).toNat = (if q.num < 0 then 2 ^ 31 else 0) + (E * 2 ^ 23 + k) := by
    rw [f32Rne, hP, BitVec.toNat_ofNat]
    split <;> omega
  have hexp : f32Exponent (f32Rne q) = E + k / 2 ^ 23 := by
    rw [f32Exponent_eq, hwN]; split <;> omega
  have hfrac : f32Fraction (f32Rne q) = k % 2 ^ 23 := by
    rw [f32Fraction_eq, hwN]; split <;> omega
  have hsign : f32SignOf (f32Rne q) = if q.num < 0 then -1 else 1 := by
    rw [f32SignOf, f32Sign_eq, hwN]
    by_cases hneg : q.num < 0
    · simp [hneg]
    · simp [hneg]
      omega
  have hne : f32Exponent (f32Rne q) ≠ 0 := by omega
  refine ⟨k, klo, abs_le.2 near, ?_, ?_, ?_⟩
  · simp only [f32Finite, hexp, bne_iff_ne]; omega
  · intro h
    have := congrArg BitVec.toNat h
    rw [hwN] at this
    simp at this
    split at this <;> omega
  · rw [f32Value_toRat, hsign, f32Significand, if_neg hne, hexp, hfrac, mul_assoc, mul_assoc]
    congr 1
    rcases Nat.lt_or_ge k (2 ^ 24) with hlt | hge
    · have a : 2 ^ 23 + k % 2 ^ 23 = k := by omega
      have b : ((max (E + k / 2 ^ 23) 1 : Nat) : Int) - 150 = e - 23 := by omega
      rw [a, b]
    · have a : 2 ^ 23 + k % 2 ^ 23 = 2 ^ 23 := by omega
      have b : ((max (E + k / 2 ^ 23) 1 : Nat) : Int) - 150 = (e - 23) + 1 := by omega
      have c : k = 2 ^ 24 := by omega
      rw [a, b, c, zpow_add₀ two]
      push_cast
      ring

/-- A fraction in the normal range: its magnitude lies between `2 ^ a` and `2 ^ b`. -/
theorem Frac.exponent_bounds {q : Frac} (hd : q.den ≠ 0) {a b : Int} (ha : (2 : ℚ) ^ a ≤ |q.toRat|)
    (hb : |q.toRat| < 2 ^ b) :
    q.num ≠ 0 ∧ a ≤ floorLog2 q.num.natAbs q.den ∧ floorLog2 q.num.natAbs q.den < b := by
  have hn : q.num ≠ 0 := by
    intro h
    have : (0 : ℚ) < 2 ^ a := by positivity
    rw [Frac.toRat, h] at ha
    simp at ha
    linarith
  have habs : |q.toRat| = (q.num.natAbs : ℚ) / q.den := by
    rw [Frac.toRat, abs_div, Nat.abs_cast, Nat.cast_natAbs, Int.cast_abs]
  rw [habs] at ha hb
  exact ⟨hn, floorLog2_bounds (by omega) hd ha hb⟩

/-- The sign of a fraction is its numerator's. -/
theorem Frac.sign_mul_abs {q : Frac} : (if q.num < 0 then -1 else 1 : ℚ) * |q.toRat| = q.toRat := by
  have hden : (0 : ℚ) ≤ q.den := by positivity
  split
  · rename_i h
    have : q.toRat ≤ 0 := div_nonpos_of_nonpos_of_nonneg (by exact_mod_cast h.le) hden
    rw [abs_of_nonpos this]; ring
  · rename_i h
    have : 0 ≤ q.toRat := div_nonneg (by exact_mod_cast Int.not_lt.mp h) hden
    rw [abs_of_nonneg this]; ring

/-- A zero fraction gives +0.0. -/
theorem f32Rne_zero {q : Frac} (hn : q.num = 0) : f32Rne q = 0x00000000 := by
  simp [f32Rne, f32Magnitude, hn]

/-- Exactness (spec/00_scope.md R11, `f32_exact`): an integer of at most 24 bits times a power of two in the normal range
is represented exactly. -/
theorem f32Exact_value (q : Frac) (hd : q.den ≠ 0) (k : Int) (p : Int) (hq : q.toRat = k * 2 ^ p)
    (hk : k.natAbs ≤ 2 ^ 24) (hp1 : -126 ≤ p) (hp2 : p ≤ 100) :
    f32Finite (f32Exact q) = true ∧ (f32Value (f32Exact q)).toRat = q.toRat ∧ f32Exact q ≠ 0x80000000 := by
  have two : (2 : ℚ) ≠ 0 := by norm_num
  unfold f32Exact
  by_cases hk0 : k = 0
  · have h0 : q.toRat = 0 := by rw [hq, hk0]; simp
    have hn : q.num = 0 := by
      rw [Frac.toRat, div_eq_zero_iff] at h0
      rcases h0 with h | h
      · exact_mod_cast h
      · exact absurd (by exact_mod_cast h) hd
    rw [f32Rne_zero hn, h0]
    refine ⟨by decide, ?_, by decide⟩
    rw [f32Value_toRat]
    simp [f32Significand, f32Exponent, f32Fraction]
  have habs : |q.toRat| = (k.natAbs : ℚ) * 2 ^ p := by
    rw [hq, abs_mul, abs_of_nonneg (by positivity : (0 : ℚ) ≤ 2 ^ p), Nat.cast_natAbs, Int.cast_abs]
  have hk1 : (1 : ℚ) ≤ k.natAbs := by exact_mod_cast (by omega : 1 ≤ k.natAbs)
  have hk2 : (k.natAbs : ℚ) ≤ 2 ^ 24 := by exact_mod_cast hk
  obtain ⟨hn, he1, he2⟩ := Frac.exponent_bounds (q := q) hd (a := p) (b := p + 25)
    (by rw [habs]; nlinarith [show (0 : ℚ) < 2 ^ p by positivity])
    (by
      rw [habs, zpow_add₀ two, mul_comm]
      gcongr
      refine hk2.trans_lt ?_
      norm_num)
  obtain ⟨j, j1, j2, fin, nz, val⟩ := f32Rne_normal q hn hd (by omega) (by omega)
  refine ⟨fin, ?_, nz⟩
  set e := floorLog2 q.num.natAbs q.den with he
  have hmn : q.num.natAbs ≠ 0 := by omega
  obtain ⟨lo, hi⟩ := floorLog2_spec hmn hd
  have habs' : |q.toRat| = (q.num.natAbs : ℚ) / q.den := by
    rw [Frac.toRat, abs_div, Nat.abs_cast, Nat.cast_natAbs, Int.cast_abs]
  rw [← habs', ← he] at lo hi
  -- the scaled magnitude is an integer
  have hint : ∃ i : Int, |q.toRat| * 2 ^ (23 - e) = i := by
    rw [habs, mul_assoc, ← zpow_add₀ two]
    rcases le_total 0 (p + (23 - e)) with h | h
    · obtain ⟨n, hn'⟩ := Int.eq_ofNat_of_zero_le h
      rw [hn']
      exact ⟨k.natAbs * 2 ^ n, by push_cast; rw [zpow_natCast, Nat.cast_natAbs, Int.cast_abs]⟩
    · -- then `p + 24 ≤ e`, so the magnitude is the power of two `2 ^ 24 * 2 ^ p`
      have h5 : (2 : ℚ) ^ e ≤ 2 ^ (p + 24) := by
        refine lo.trans ?_
        rw [habs, zpow_add₀ two, mul_comm]
        gcongr
        exact_mod_cast hk2
      have h6 := (zpow_le_zpow_iff_right₀ (by norm_num : (1 : ℚ) < 2)).1 h5
      rcases eq_or_lt_of_le h6 with h7 | h7
      · have h8 : (k.natAbs : ℚ) = 2 ^ 24 := by
          refine le_antisymm hk2 ?_
          have : (2 : ℚ) ^ (p + 24) ≤ k.natAbs * 2 ^ p := by rw [← h7, ← habs]; exact lo
          rw [zpow_add₀ two, mul_comm] at this
          exact_mod_cast le_of_mul_le_mul_right this (by positivity)
        refine ⟨2 ^ 23, ?_⟩
        rw [h8, h7, show p + (23 - (p + 24)) = -1 by ring]
        norm_num
      · have h8 : p + (23 - e) = 0 := by omega
        refine ⟨k.natAbs, ?_⟩
        rw [h8]
        simp
  obtain ⟨i, hi'⟩ := hint
  rw [hi'] at j2
  have hji : (j : ℚ) = i := by
    have h9 : |((j : Int) - i : Int)| < 1 := by
      have : |(((j : Int) - i : Int) : ℚ)| < 1 := by
        push_cast
        linarith
      exact_mod_cast this
    have h10 : (j : Int) - i = 0 := Int.abs_lt_one_iff.1 h9
    have h11 : (j : Int) = i := by omega
    exact_mod_cast congrArg (Int.cast : Int → ℚ) h11
  rw [val, hji, ← hi', mul_assoc, mul_assoc, ← zpow_add₀ two, show 23 - e + (e - 23) = 0 by ring, zpow_zero, mul_one,
    Frac.sign_mul_abs]

/-- A tie goes to the even integer. -/
theorem roundNearestEven_tie {n d : Nat} (h : 2 * (n % d) = d) : roundNearestEven n d % 2 = 0 := by
  unfold roundNearestEven
  simp only
  rw [if_neg (by omega), if_neg (by omega)]
  omega

theorem f32Significand_lt (w : Word) : f32Significand w < 2 ^ 24 := by
  have := f32Fraction_eq w
  unfold f32Significand
  split <;> omega

/-- Seen from a number of exponent `e`, scaled to 24 bits, every binary32 value is an integer or lies below
`2 ^ 23`. -/
theorem f32Value_scaled (v : Word) (σ : ℚ) (hσ : σ = 1 ∨ σ = -1) (e : Int) :
    (∃ i : Int, σ * (f32Value v).toRat * 2 ^ (23 - e) = i) ∨ σ * (f32Value v).toRat * 2 ^ (23 - e) < 2 ^ 23 := by
  have two : (2 : ℚ) ≠ 0 := by norm_num
  have hsig : (f32Significand v : ℚ) < 2 ^ 24 := by exact_mod_cast f32Significand_lt v
  obtain ⟨τ, hτ, hval⟩ : ∃ τ : Int, (τ = 1 ∨ τ = -1) ∧ σ * (f32Value v).toRat * 2 ^ (23 - e) =
      τ * f32Significand v * 2 ^ (((max (f32Exponent v) 1 : Nat) : Int) - 127 - e) := by
    have hexp : (2 : ℚ) ^ (((max (f32Exponent v) 1 : Nat) : Int) - 127 - e) =
        2 ^ (((max (f32Exponent v) 1 : Nat) : Int) - 150) * 2 ^ (23 - e) := by
      rw [← zpow_add₀ two]; congr 1; ring
    rw [f32Value_toRat, hexp, f32SignOf]
    rcases hσ with rfl | rfl <;> split
    · exact ⟨-1, .inr rfl, by push_cast; ring⟩
    · exact ⟨1, .inl rfl, by push_cast; ring⟩
    · exact ⟨1, .inl rfl, by push_cast; ring⟩
    · exact ⟨-1, .inr rfl, by push_cast; ring⟩
  rw [hval]
  rcases le_or_gt 0 (((max (f32Exponent v) 1 : Nat) : Int) - 127 - e) with h | h
  · obtain ⟨n, hn⟩ := Int.eq_ofNat_of_zero_le h
    rw [hn, zpow_natCast]
    exact .inl ⟨τ * f32Significand v * 2 ^ n, by push_cast; ring⟩
  · right
    have hpow : (2 : ℚ) ^ (((max (f32Exponent v) 1 : Nat) : Int) - 127 - e) ≤ 2 ^ (-1 : Int) :=
      zpow_le_zpow_right₀ (by norm_num) (by omega)
    have hpos : (0 : ℚ) < 2 ^ (((max (f32Exponent v) 1 : Nat) : Int) - 127 - e) := by positivity
    have h0 : (0 : ℚ) ≤ f32Significand v := by positivity
    have hmul : (f32Significand v : ℚ) * 2 ^ (((max (f32Exponent v) 1 : Nat) : Int) - 127 - e) < 2 ^ 23 := by
      calc _ ≤ (f32Significand v : ℚ) * 2 ^ (-1 : Int) := by gcongr
        _ < 2 ^ 24 * 2 ^ (-1 : Int) := by gcongr
        _ = 2 ^ 23 := by norm_num
    rcases hτ with rfl | rfl
    · simpa using hmul
    · have : (0 : ℚ) ≤ f32Significand v * 2 ^ (((max (f32Exponent v) 1 : Nat) : Int) - 127 - e) := by positivity
      rw [show ((-1 : Int) : ℚ) = -1 by norm_num, neg_one_mul, neg_mul]
      linarith

/-- Nearest (spec/00_scope.md R11, `f32_rne`): in the normal range no binary32 value is nearer than the one `f32Rne`
answers, and unless the scaled magnitude is halfway between two integers no other value is as near. -/
theorem f32Rne_nearest (q : Frac) (hd : q.den ≠ 0) {a b : Int} (ha : (2 : ℚ) ^ a ≤ |q.toRat|)
    (hb : |q.toRat| < 2 ^ b) (ha' : -126 ≤ a) (hb' : b ≤ 127) :
    f32Finite (f32Rne q) = true ∧ ∀ v : Word,
      |(f32Value (f32Rne q)).toRat - q.toRat| ≤ |(f32Value v).toRat - q.toRat| ∧
      ((∀ i : Int, |q.toRat| * 2 ^ (23 - floorLog2 q.num.natAbs q.den) ≠ i + 1 / 2) →
        (f32Value v).toRat ≠ (f32Value (f32Rne q)).toRat →
        |(f32Value (f32Rne q)).toRat - q.toRat| < |(f32Value v).toRat - q.toRat|) := by
  have two : (2 : ℚ) ≠ 0 := by norm_num
  obtain ⟨hn, he1, he2⟩ := Frac.exponent_bounds hd ha hb
  obtain ⟨k, klo, near, fin, -, val⟩ := f32Rne_normal q hn hd (by omega) (by omega)
  have hmn : q.num.natAbs ≠ 0 := by omega
  obtain ⟨lo, -⟩ := floorLog2_spec hmn hd
  have habs : |q.toRat| = (q.num.natAbs : ℚ) / q.den := by
    rw [Frac.toRat, abs_div, Nat.abs_cast, Nat.cast_natAbs, Int.cast_abs]
  rw [← habs] at lo
  refine ⟨fin, fun v => ?_⟩
  generalize floorLog2 q.num.natAbs q.den = e at *
  generalize hσ : (if q.num < 0 then -1 else 1 : ℚ) = σ at *
  have hσ' : σ = 1 ∨ σ = -1 := by rw [← hσ]; split <;> simp
  have hσσ : σ * σ = 1 := by rcases hσ' with h | h <;> rw [h] <;> norm_num
  have hq : q.toRat = σ * |q.toRat| := by rw [← hσ]; exact Frac.sign_mul_abs.symm
  have hs : (0 : ℚ) < 2 ^ (23 - e) := by positivity
  have scale : ∀ z : ℚ, |z - q.toRat| * 2 ^ (23 - e) = |σ * z * 2 ^ (23 - e) - |q.toRat| * 2 ^ (23 - e)| := by
    intro z
    have h1 : σ * z * 2 ^ (23 - e) - |q.toRat| * 2 ^ (23 - e) = σ * ((z - q.toRat) * 2 ^ (23 - e)) := by
      conv_rhs => rw [hq]
      linear_combination (-(|q.toRat| * 2 ^ (23 - e))) * (-hσσ)
    have h2 : |σ| = 1 := by rcases hσ' with h | h <;> rw [h] <;> norm_num
    rw [h1, abs_mul, h2, one_mul, abs_mul, abs_of_pos hs]
  have hw : σ * (f32Value (f32Rne q)).toRat * 2 ^ (23 - e) = k := by
    rw [val, show σ * (σ * k * 2 ^ (e - 23)) * 2 ^ (23 - e) = (σ * σ) * k * (2 ^ (e - 23) * 2 ^ (23 - e)) by ring,
      hσσ, ← zpow_add₀ two, show e - 23 + (23 - e) = 0 by ring]
    simp
  have xlo : (2 : ℚ) ^ 23 ≤ |q.toRat| * 2 ^ (23 - e) := by
    calc (2 : ℚ) ^ 23 = 2 ^ e * 2 ^ (23 - e) := by
          rw [← zpow_add₀ two]; norm_num [show e + (23 - e) = 23 by ring]
      _ ≤ _ := by gcongr
  rw [← mul_le_mul_iff_left₀ hs, scale, scale, ← mul_lt_mul_iff_left₀ (b := |_ - _|) hs, scale, scale, hw]
  have hne : (f32Value v).toRat ≠ (f32Value (f32Rne q)).toRat → σ * (f32Value v).toRat * 2 ^ (23 - e) ≠ k := by
    intro h h'
    apply h
    have h3 : σ * (f32Value v).toRat * 2 ^ (23 - e) = σ * (f32Value (f32Rne q)).toRat * 2 ^ (23 - e) := h'.trans hw.symm
    have h4 := mul_right_cancel₀ hs.ne' h3
    exact mul_left_cancel₀ (by rcases hσ' with h | h <;> rw [h] <;> norm_num) h4
  have hY := f32Value_scaled v σ hσ' e
  generalize σ * (f32Value v).toRat * 2 ^ (23 - e) = Y at *
  generalize |q.toRat| * 2 ^ (23 - e) = x at *
  rw [abs_le] at near
  have low : (k : ℚ) - x ≤ 1 / 2 ∧ -(1 / 2) ≤ (k : ℚ) - x := ⟨near.2, near.1⟩
  -- an integer other than `k` is at least one half away from `x`
  have far : ∀ i : Int, (i : ℚ) ≠ k → 1 / 2 ≤ |(i : ℚ) - x| := by
    intro i hi
    have hi' : i ≠ (k : Int) := by intro h; exact hi (by rw [h]; simp)
    rcases lt_or_gt_of_ne hi' with h | h
    · have : (i : ℚ) + 1 ≤ k := by exact_mod_cast h
      rw [abs_of_nonpos (by linarith)]; linarith
    · have : (k : ℚ) + 1 ≤ i := by exact_mod_cast h
      rw [abs_of_nonneg (by linarith)]; linarith
  have hkx : |(k : ℚ) - x| ≤ 1 / 2 := abs_le.2 near
  constructor
  · rcases hY with ⟨i, hi⟩ | hY
    · rw [hi]
      by_cases h : (i : ℚ) = k
      · rw [h]
      · exact hkx.trans (far i h)
    · have klo' : (2 : ℚ) ^ 23 ≤ k := by exact_mod_cast klo
      rw [abs_of_neg (by linarith : Y - x < 0)]
      rcases le_total x k with h | h
      · rw [abs_of_nonneg (by linarith)]
        by_cases h23 : (k : ℚ) = 2 ^ 23
        · linarith
        · have := far (2 ^ 23) (by push_cast; exact fun h => h23 h.symm)
          push_cast at this
          rw [abs_of_nonpos (by linarith)] at this
          linarith
      · rw [abs_of_nonpos (by linarith)]; linarith
  · intro notie hv
    have strict : |(k : ℚ) - x| < 1 / 2 := by
      refine lt_of_le_of_ne hkx fun h => ?_
      rcases abs_eq (by norm_num : (0 : ℚ) ≤ 1 / 2) |>.1 h with h | h
      · exact notie (k - 1) (by push_cast; linarith)
      · exact notie k (by push_cast; linarith)
    rcases hY with ⟨i, hi⟩ | hY
    · rw [hi]
      exact strict.trans_le (far i (hi ▸ hne hv))
    · have klo' : (2 : ℚ) ^ 23 ≤ k := by exact_mod_cast klo
      rw [abs_of_neg (by linarith : Y - x < 0)]
      rcases le_total x k with h | h
      · rw [abs_of_nonneg (by linarith)]
        by_cases h23 : (k : ℚ) = 2 ^ 23
        · linarith
        · have h24 := far (2 ^ 23) (by push_cast; exact fun h => h23 h.symm)
          push_cast at h24
          rw [abs_of_nonpos (by linarith)] at h24
          rw [abs_of_nonneg (by linarith)] at strict
          linarith
      · rw [abs_of_nonpos (by linarith)]; linarith

end Sys2Proof
end

