-- ==== Sys2Proof/Laws/Decoders.lean ====
section
/-! SUPPORT. The decode functions give proper fractions, and the exactness of `f32Exact` in the claims' own term. -/

namespace Sys2Proof

/-- `f32Exact` answers the pattern of a value that is an integer of at most 24 bits times a power of two. -/
theorem isF32Of_f32Exact (q : Frac) (hd : q.den ≠ 0) (k p : Int) (hq : q.toRat = k * 2 ^ p) (hk : k.natAbs ≤ 2 ^ 24)
    (hp1 : -126 ≤ p) (hp2 : p ≤ 100) : IsF32Of (f32Exact q) q.toRat := by
  obtain ⟨fin, val, nz⟩ := f32Exact_value q hd k p hq hk hp1 hp2
  exact ⟨fin, val, nz⟩

namespace Machine

theorem mag_den_ne_zero (R : Nat) (n : Half) : (mag R n).den ≠ 0 :=
  Frac.mul_den_ne_zero
    (Frac.mul_den_ne_zero (Frac.add_den_ne_zero (by norm_num) (by norm_num)) one_ne_zero) one_ne_zero

theorem angle_den_ne_zero (n : Half) : (angle n).den ≠ 0 := Frac.add_den_ne_zero one_ne_zero (by norm_num)

theorem temp_den_ne_zero (c : Nat) : (temp c).den ≠ 0 :=
  Frac.add_den_ne_zero one_ne_zero (Frac.div_den_ne_zero one_ne_zero (by norm_num [Config.tAdcRes]))

end Machine

end Sys2Proof
end

