-- ==== Sys2Proof/Laws/Operands.lean ====
section
/-! SUPPORT. The assembly primitive as a number. -/

namespace Sys2Proof.Machine

/-- The two byte fields do not overlap, so the OR is a sum. -/
theorem u16_toNat (hi lo : Byte) : (u16 hi lo).toNat = 256 * hi.toNat + lo.toNat := by
  have h1 := hi.isLt
  have h2 := lo.isLt
  have h3 : (hi.zeroExtend 16 <<< 8).toNat = hi.toNat * 2 ^ 8 := by
    simp [BitVec.toNat_shiftLeft, Nat.shiftLeft_eq]
    omega
  have h4 : (lo.zeroExtend 16).toNat = lo.toNat := by simp; omega
  rw [u16, BitVec.toNat_or, h3, h4, Nat.mul_comm,
    ← Nat.two_pow_add_eq_or_of_lt (by omega : lo.toNat < 2 ^ 8)]

theorem msbFirst_toNat (b0 b1 : Byte) : (msbFirst b0 b1).toNat = 256 * b0.toNat + b1.toNat := u16_toNat b0 b1

theorem lsbFirst_toNat (b0 b1 : Byte) : (lsbFirst b0 b1).toNat = 256 * b1.toNat + b0.toNat := u16_toNat b1 b0

end Sys2Proof.Machine
end

