-- ==== Sys2Proof/Laws/PerInstr.lean ====
section
/-! SUPPORT. Statements made per instruction: its request is whole, as long as spec/opcode_table.json says, and its
command byte's fields are the opcode map's (spec/30_encoding.md R42). -/

namespace Sys2Proof.Laws.OneRequest

/-- The encoding of `i` is one whole request of `1 + LEN` bytes with RSV = 0, whose first byte holds the operation's number
and length. -/
def Statement (i : Instr) : Prop :=
  i.wellFormed = true ∧ frameAll (encode i) = [i.request] ∧ (encode i).length = 1 + i.op.requiredLen ∧
    cmdRsv i.request.cmd = false ∧ opOfNibble (cmdOp i.request.cmd) = some i.op ∧
    cmdLen i.request.cmd = i.op.requiredLen

/-- The facts of the encoding tables, for one constructor at a time. -/
theorem of_request (i : Instr) : Statement i := by
  have hl : (encode i).length = 1 + i.op.requiredLen := by
    simp [encode, Request.bytes, Instr.request, i.operands_length, Nat.add_comm]
  have hf : frameRequest (encode i) = some (i.request, []) := by
    simpa [encode] using frameRequest_append i.request_wellFormed []
  refine ⟨i.wellFormed_eq_true, ?_, hl, cmdRsv_cmd _, opOfNibble_cmd _, cmdLen_cmd _⟩
  rw [frameAll, hl, Nat.add_comm, frameAllIn, hf]
  cases i.op.requiredLen <;> rfl

theorem angle (b0 b1 : Byte) : Statement (.angle b0 b1) := of_request _
theorem field (b0 b1 : Byte) : Statement (.field b0 b1) := of_request _
theorem xyz (b0 b1 b2 b3 b4 b5 b6 : Byte) : Statement (.xyz b0 b1 b2 b3 b4 b5 b6) := of_request _
theorem temp (b0 b1 : Byte) : Statement (.temp b0 b1) := of_request _
theorem mag (b0 : Byte) : Statement (.mag b0) := of_request _
theorem id16 (b0 b1 : Byte) : Statement (.id16 b0 b1) := of_request _

end Sys2Proof.Laws.OneRequest
end

