-- ==== Sys2Proof/Laws/Port.lean ====
section
/-! SUPPORT. Everything the request port can answer. -/

namespace Sys2Proof.Machine

@[simp] theorem asEvents_append (a b : List Byte) : asEvents (a ++ b) = asEvents a ++ asEvents b := by
  simp [asEvents]

@[simp] theorem delivered_append (a b : List PortEvent) : delivered (a ++ b) = delivered a ++ delivered b := by
  simp [delivered]

@[simp] theorem delivered_byte (b : Byte) : delivered [.byte b] = [b] := rfl

@[simp] theorem delivered_heldByte (b : Byte) : delivered [.heldByte b] = [b] := rfl

@[simp] theorem delivered_nil : delivered [] = [] := rfl

@[simp] theorem delivered_asEvents (bs : List Byte) : delivered (asEvents bs) = bs := by
  simp only [delivered, asEvents, List.filterMap_map]
  exact List.filterMap_some

@[simp] theorem asEvents_deliver (bs : List Byte) : onlyDeliveries (asEvents bs) = true := by
  simp [onlyDeliveries, asEvents, PortEvent.byte?]

@[simp] theorem onlyDeliveries_nil : onlyDeliveries [] = true := rfl

@[simp] theorem onlyDeliveries_cons (e : PortEvent) (p : List PortEvent) :
    onlyDeliveries (e :: p) = (e.byte?.isSome && onlyDeliveries p) := rfl

@[simp] theorem onlyDeliveries_append (p q : List PortEvent) :
    onlyDeliveries (p ++ q) = (onlyDeliveries p && onlyDeliveries q) := by
  simp [onlyDeliveries]

@[simp] theorem lastIsHeld_byte (p : List PortEvent) (b : Byte) : lastIsHeld (p ++ [.byte b]) = false := by
  simp [lastIsHeld]

@[simp] theorem lastIsHeld_heldByte (p : List PortEvent) (b : Byte) : lastIsHeld (p ++ [.heldByte b]) = true := by
  simp [lastIsHeld]

theorem lastIsHeld_asEvents (bs : List Byte) : lastIsHeld (asEvents bs) = false := by
  induction bs using List.reverseRecOn with
  | nil => rfl
  | append_singleton bs b _ => rw [asEvents_append]; exact lastIsHeld_byte _ b

theorem hostActNext_eq_true {p : List PortEvent} (h : hostActNext p = true) :
    (∃ k rest, p = .read k :: rest) ∨ ∃ rest, p = .reset :: rest := by
  rcases p with - | ⟨_ | _ | k | -, rest⟩
  · cases h
  · cases h
  · cases h
  · exact .inl ⟨k, rest, rfl⟩
  · exact .inr ⟨rest, rfl⟩

/-- Deliveries that are not whole are not stepped. -/
theorem notStepped_of_none {p : List PortEvent} (hd : onlyDeliveries p = true)
    (h : frameRequest (delivered p) = none) : notStepped p = true := by
  simp only [notStepped, hd, h, Bool.and_self]

/-- Bytes delivered without being held are taken, whatever follows. -/
theorem takes_asEvents {r : Request} (h : r.wellFormed = true) (rest : List PortEvent) :
    takes (asEvents r.bytes) r rest = true := by
  simp [takes, h, lastIsHeld_asEvents]

/-- Scanning past deliveries that do not make up a request. -/
theorem scanPort_incomplete (seen p rest : List PortEvent) (hd : onlyDeliveries p = true)
    (h : frameRequest (delivered seen ++ delivered p) = none) :
    scanPort seen (p ++ rest) = scanPort (seen ++ p) rest := by
  induction p generalizing seen with
  | nil => simp
  | cons e p ih =>
    simp only [onlyDeliveries_cons, Bool.and_eq_true] at hd
    have hsplit : delivered (e :: p) = delivered [e] ++ delivered p := delivered_append [e] p
    rw [hsplit, ← List.append_assoc] at h
    have hnone := frameRequest_none_of_append h
    have hrec := ih (seen ++ [e]) hd.2 (by simpa using h)
    rw [List.append_assoc, List.singleton_append] at hrec
    cases e with
    | byte b => rw [List.cons_append, scanPort, show frameRequest (delivered seen ++ [b]) = none from hnone]; exact hrec
    | heldByte b => rw [List.cons_append, scanPort, show frameRequest (delivered seen ++ [b]) = none from hnone]; exact hrec
    | read k => cases hd.1
    | reset => cases hd.1

/-- Deliveries end in a byte of either kind, after deliveries. -/
theorem deliveries_snoc {p : List PortEvent} (hd : onlyDeliveries p = true) (hne : delivered p ≠ []) :
    ∃ q b, onlyDeliveries q = true ∧ (p = q ++ [.byte b] ∨ p = q ++ [.heldByte b]) := by
  rcases List.eq_nil_or_concat p with rfl | ⟨q, e, rfl⟩
  · exact absurd rfl hne
  · rw [List.concat_eq_append, onlyDeliveries_append, Bool.and_eq_true, onlyDeliveries_cons, Bool.and_eq_true] at hd
    cases e with
    | byte b => exact ⟨q, b, hd.1, .inl (List.concat_eq_append ..)⟩
    | heldByte b => exact ⟨q, b, hd.1, .inr (List.concat_eq_append ..)⟩
    | read k => cases hd.2.1
    | reset => cases hd.2.1

theorem takes_eq_true {p : List PortEvent} {r : Request} {rest : List PortEvent} :
    takes p r rest = true ↔ onlyDeliveries p = true ∧ r.wellFormed = true ∧ delivered p = r.bytes ∧
      (lastIsHeld p = true → hostActNext rest = false) := by
  simp only [takes, Bool.and_eq_true, beq_iff_eq, Bool.not_eq_true', Bool.and_eq_false_iff]
  cases lastIsHeld p <;> simp [and_assoc]

theorem notStepped_eq_true {p : List PortEvent} :
    notStepped p = true ↔ onlyDeliveries p = true ∧ (frameRequest (delivered p) = none ∨
      lastIsHeld p = true ∧ ∃ r : Request, r.wellFormed = true ∧ delivered p = r.bytes) := by
  simp only [notStepped, Bool.and_eq_true]
  refine and_congr_right fun _ => ?_
  cases hf : frameRequest (delivered p) with
  | none => simp
  | some q =>
    obtain ⟨r, more⟩ := q
    obtain ⟨hw, hb⟩ := frameRequest_eq_some hf
    simp only [Bool.and_eq_true, List.isEmpty_iff, reduceCtorEq, false_or]
    constructor
    · rintro ⟨rfl, hl⟩; exact ⟨hl, r, hw, by simpa using hb⟩
    · rintro ⟨hl, r', hw', hb'⟩
      have := frameRequest_append hw' []
      rw [List.append_nil, ← hb', hf] at this
      cases this
      exact ⟨rfl, hl⟩

/-- The last byte of a whole request, and the deliveries before it, which are not whole. -/
theorem whole_snoc {q : List PortEvent} {b : Byte} {r : Request} (hw : r.wellFormed = true)
    (hb : delivered q ++ [b] = r.bytes) :
    frameRequest (delivered q) = none ∧ frameRequest (delivered q ++ [b]) = some (r, []) :=
  ⟨frameRequest_none_of_prefix hw (more := [b]) (by simp) hb, by simpa [hb] using frameRequest_append hw []⟩

/-- A whole request at the head of the port is taken, with exactly its bytes (R40). -/
theorem nextEvent_request {p : List PortEvent} {r : Request} {rest : List PortEvent} (h : takes p r rest = true) :
    nextEvent (p ++ rest) = .request r rest := by
  obtain ⟨hd, hw, hb, hl⟩ := takes_eq_true.1 h
  obtain ⟨q, b, hq, rfl | rfl⟩ := deliveries_snoc hd (by simp [hb, Request.bytes]) <;>
    obtain ⟨hnone, hwhole⟩ := whole_snoc hw (by simpa using hb) <;>
    rw [nextEvent, List.append_assoc, scanPort_incomplete [] q _ hq (by simpa using hnone), List.nil_append,
      List.singleton_append, scanPort, hwhole]
  simp [hl (by simp)]

/-- Deliveries that are not stepped are passed when a read or a reset follows. -/
theorem scanPort_notStepped {p rest : List PortEvent} (h : notStepped p = true) (ha : hostActNext rest = true) :
    scanPort [] (p ++ rest) = scanPort p rest := by
  obtain ⟨hd, hnone | ⟨hl, r, hw, hb⟩⟩ := notStepped_eq_true.1 h
  · exact scanPort_incomplete [] p rest hd (by simpa using hnone)
  · obtain ⟨q, b, hq, rfl | rfl⟩ := deliveries_snoc hd (by simp [hb, Request.bytes])
    · simp at hl
    · obtain ⟨hnone, hwhole⟩ := whole_snoc hw (by simpa using hb)
      rw [List.append_assoc, scanPort_incomplete [] q _ hq (by simpa using hnone), List.nil_append, List.singleton_append,
        scanPort, hwhole]
      simp [ha]

/-- A read before the request is stepped is taken, and the deliveries stay. -/
theorem nextEvent_read {p : List PortEvent} (h : notStepped p = true) (k : Fin 4) (rest : List PortEvent) :
    nextEvent (p ++ .read k :: rest) = .read k (p ++ rest) := by
  rw [nextEvent, scanPort_notStepped h rfl, scanPort]

/-- A reset before the request is stepped is taken, and the deliveries are discarded (R87). -/
theorem nextEvent_reset {p : List PortEvent} (h : notStepped p = true) (rest : List PortEvent) :
    nextEvent (p ++ .reset :: rest) = .reset rest := by
  rw [nextEvent, scanPort_notStepped h rfl, scanPort]

/-- A request that is not whole, with nothing after it, is waited for. -/
theorem nextEvent_wait {p : List PortEvent} (hd : onlyDeliveries p = true)
    (h : frameRequest (delivered p) = none) : nextEvent p = .wait := by
  have := scanPort_incomplete [] p [] hd (by simpa using h)
  rw [List.append_nil] at this
  rw [nextEvent, this, scanPort]

/-- Every port is one of the four. -/
theorem port_cases (port : List PortEvent) :
    (∃ p r rest, takes p r rest = true ∧ port = p ++ rest) ∨
    (∃ p k rest, notStepped p = true ∧ port = p ++ .read k :: rest) ∨
    (∃ p rest, notStepped p = true ∧ port = p ++ .reset :: rest) ∨
    (onlyDeliveries port = true ∧ frameRequest (delivered port) = none) := by
  suffices h : ∀ rest seen : List PortEvent, onlyDeliveries seen = true → frameRequest (delivered seen) = none →
      port = seen ++ rest → _ from h port [] rfl rfl rfl
  intro rest
  induction rest with
  | nil => rintro seen hd hs rfl; exact .inr (.inr (.inr ⟨by simpa using hd, by simpa using hs⟩))
  | cons e rest ih =>
    intro seen hd hs hp
    have hns := notStepped_of_none hd hs
    have next := ih (seen ++ [e])
    have hp' : port = (seen ++ [e]) ++ rest := by simpa using hp
    cases e with
    | read k => exact .inr (.inl ⟨seen, k, rest, hns, hp⟩)
    | reset => exact .inr (.inr (.inl ⟨seen, rest, hns, hp⟩))
    | byte b =>
      have hd' : onlyDeliveries (seen ++ [.byte b]) = true := by simp [hd, PortEvent.byte?]
      cases hf : frameRequest (delivered (seen ++ [.byte b])) with
      | none => exact next hd' hf hp'
      | some q =>
        rw [delivered_append, delivered_byte] at hf
        obtain ⟨hw, -, hb⟩ := frameRequest_snoc (r := q.1) (more := q.2) hs hf
        exact .inl ⟨_, q.1, rest, takes_eq_true.2 ⟨hd', hw, by simpa using hb, by simp⟩, hp'⟩
    | heldByte b =>
      have hd' : onlyDeliveries (seen ++ [.heldByte b]) = true := by simp [hd, PortEvent.byte?]
      cases hf : frameRequest (delivered (seen ++ [.heldByte b])) with
      | none => exact next hd' hf hp'
      | some q =>
        rw [delivered_append, delivered_heldByte] at hf
        obtain ⟨hw, -, hb⟩ := frameRequest_snoc (r := q.1) (more := q.2) hs hf
        cases ha : hostActNext rest with
        | false => exact .inl ⟨_, q.1, rest, takes_eq_true.2 ⟨hd', hw, by simpa using hb, fun _ => ha⟩, hp'⟩
        | true =>
          have held : notStepped (seen ++ [.heldByte b]) = true :=
            notStepped_eq_true.2 ⟨hd', .inr ⟨by simp, q.1, hw, by simpa using hb⟩⟩
          rcases hostActNext_eq_true ha with ⟨k, more, rfl⟩ | ⟨more, rfl⟩
          · exact .inr (.inl ⟨_, k, more, held, hp'⟩)
          · exact .inr (.inr (.inl ⟨_, more, held, hp'⟩))

end Sys2Proof.Machine
end

