-- ==== Sys2Proof/Laws/State.lean ====
section
/-! SUPPORT. One lemma per field per update of State, and the fields of the status word. -/

namespace Sys2Proof.Machine

@[simp] theorem writeRsp_rsp (s : State) (r : Rsp) : (s.writeRsp r).rsp = r := rfl
@[simp] theorem writeRsp_port (s : State) (r : Rsp) : (s.writeRsp r).port = s.port := rfl
@[simp] theorem writeRsp_trace (s : State) (r : Rsp) : (s.writeRsp r).trace = .response r :: s.trace := rfl

@[simp] theorem withPort_rsp (s : State) (p : List PortEvent) : (s.withPort p).rsp = s.rsp := rfl
@[simp] theorem withPort_port (s : State) (p : List PortEvent) : (s.withPort p).port = p := rfl
@[simp] theorem withPort_trace (s : State) (p : List PortEvent) : (s.withPort p).trace = s.trace := rfl

@[simp] theorem respondOk_rsp (cmd : Byte) (a b c : Word) (s : State) :
    (respondOk cmd a b c s).rsp = ⟨statusWord cmd .ok, a, b, c⟩ := rfl
@[simp] theorem respondOk_port (cmd : Byte) (a b c : Word) (s : State) : (respondOk cmd a b c s).port = s.port := rfl
@[simp] theorem respondOk_trace (cmd : Byte) (a b c : Word) (s : State) :
    (respondOk cmd a b c s).trace = .response ⟨statusWord cmd .ok, a, b, c⟩ :: s.trace := rfl

@[simp] theorem raiseError_rsp (e : ErrorKind) (cmd : Byte) (s : State) :
    (raiseError e cmd s).rsp = ⟨statusWord cmd (errorStatus e), 0, 0, 0⟩ := rfl
@[simp] theorem raiseError_port (e : ErrorKind) (cmd : Byte) (s : State) : (raiseError e cmd s).port = s.port := rfl
@[simp] theorem raiseError_trace (e : ErrorKind) (cmd : Byte) (s : State) :
    (raiseError e cmd s).trace = .response ⟨statusWord cmd (errorStatus e), 0, 0, 0⟩ :: s.trace := rfl

@[simp] theorem hostRead_rsp (k : Fin 4) (s : State) : (hostRead k s).rsp = s.rsp := rfl
@[simp] theorem hostRead_port (k : Fin 4) (s : State) : (hostRead k s).port = s.port := rfl
@[simp] theorem hostRead_trace (k : Fin 4) (s : State) :
    (hostRead k s).trace = .readOut k (s.rsp.word k) :: s.trace := rfl

@[simp] theorem hostReset_rsp (s : State) : (hostReset s).rsp = Rsp.zero := rfl
@[simp] theorem hostReset_port (s : State) : (hostReset s).port = s.port := rfl
@[simp] theorem hostReset_trace (s : State) : (hostReset s).trace = .wasReset :: s.trace := rfl

/-! ### The status word -/

theorem Status.code_toNat_lt (st : Status) : st.code.toNat < 4 := by cases st <;> decide

/-- The status word as a number: the command byte above the status code. -/
theorem statusWord_toNat (cmd : Byte) (st : Status) :
    (statusWord cmd st).toNat = 256 * cmd.toNat + st.code.toNat := by
  have hc := cmd.isLt
  have hs := st.code_toNat_lt
  have h1 : (cmd.zeroExtend 32 <<< 8).toNat = cmd.toNat * 2 ^ 8 := by
    simp [BitVec.toNat_shiftLeft, Nat.shiftLeft_eq]
    omega
  rw [statusWord, BitVec.toNat_or, h1, Nat.mul_comm,
    ← Nat.two_pow_add_eq_or_of_lt (by omega : st.code.toNat < 2 ^ 8)]

@[simp] theorem statusOf_statusWord (cmd : Byte) (st : Status) : statusOf (statusWord cmd st) = st := by
  have h : ((statusWord cmd st).extractLsb' 0 2).toNat = st.code.toNat := by
    have := statusWord_toNat cmd st
    have hs := st.code_toNat_lt
    simp only [BitVec.extractLsb'_toNat, this]
    omega
  rw [statusOf, h]
  cases st <;> rfl

@[simp] theorem cmdOf_statusWord (cmd : Byte) (st : Status) : cmdOf (statusWord cmd st) = cmd := by
  apply BitVec.eq_of_toNat_eq
  have := statusWord_toNat cmd st
  have hs := st.code_toNat_lt
  have hc := cmd.isLt
  simp only [cmdOf, BitVec.extractLsb'_toNat, this, Nat.shiftRight_eq_div_pow]
  omega

@[simp] theorem reservedZero_statusWord (cmd : Byte) (st : Status) : reservedZero (statusWord cmd st) = true := by
  have := statusWord_toNat cmd st
  have hs := st.code_toNat_lt
  have hc := cmd.isLt
  have h1 : (statusWord cmd st).extractLsb' 2 6 = 0 := by
    apply BitVec.eq_of_toNat_eq
    simp only [BitVec.extractLsb'_toNat, this, Nat.shiftRight_eq_div_pow]
    simp
    omega
  have h2 : (statusWord cmd st).extractLsb' 16 16 = 0 := by
    apply BitVec.eq_of_toNat_eq
    simp only [BitVec.extractLsb'_toNat, this, Nat.shiftRight_eq_div_pow]
    simp
    omega
  simp [reservedZero, h1, h2]

end Sys2Proof.Machine
end

