-- ==== Sys2Proof/Laws/Step.lean ====
section
/-! SUPPORT. Everything a step can do: one lemma per kind of event, and the shape of every instruction's outcome. -/

namespace Sys2Proof.Machine

/-- The step on a whole request: decoded and run, or answered with its error (R46). -/
theorem step_request {s : State} {p : List PortEvent} {r : Request} {rest : List PortEvent} (h : takes p r rest = true)
    (hp : s.port = p ++ rest) :
    step s = match decodeRequest r.cmd r.data with
      | .ok i => exec i (s.withPort rest)
      | .error e => .next (raiseError e r.cmd (s.withPort rest)) := by
  cases hd : decodeRequest r.cmd r.data <;> simp only [step, hp, nextEvent_request h, hd]

theorem step_read {s : State} {p : List PortEvent} {k : Fin 4} {rest : List PortEvent} (h : notStepped p = true)
    (hp : s.port = p ++ .read k :: rest) : step s = .next (hostRead k (s.withPort (p ++ rest))) := by
  simp only [step, hp, nextEvent_read h]

theorem step_reset {s : State} {p : List PortEvent} {rest : List PortEvent} (h : notStepped p = true)
    (hp : s.port = p ++ .reset :: rest) : step s = .next (hostReset (s.withPort rest)) := by
  simp only [step, hp, nextEvent_reset h]

theorem step_wait {s : State} (hd : onlyDeliveries s.port = true) (h : frameRequest (delivered s.port) = none) :
    step s = .next s := by
  simp only [step, nextEvent_wait hd h]

/-- Every instruction ends in an OK response under its own command byte, and in no other way (R46). -/
theorem exec_shape (i : Instr) : ∃ a b c, ∀ s, exec i s = .next (respondOk i.op.cmd a b c s) := by
  cases i <;> exact ⟨_, _, _, fun _ => rfl⟩

end Sys2Proof.Machine
end

