-- ==== Sys2Proof/Tests/Slice0.lean ====
section
/-! SUPPORT. Tests: ill-formed terms, requests written out from the opcode map, the spec's own vectors (spec/95_test_vectors.md
and the corner cases of each operation's rule), and a witness for each hypothesis of the statements. Every expected value
is the spec's. -/

namespace Sys2Proof.Tests

open Sys2Proof.Machine

/-- A state with other contents than reset's and the given port. -/
def dirty (p : List PortEvent) : State := ⟨⟨0xDEAD0001, 0x11111111, 0x22222222, 0x33333333⟩, p, []⟩

/-- RSP after one step on the bytes from `dirty`, and the port that is left. -/
def after (bs : List Byte) : Option (Rsp × List PortEvent) :=
  match step (dirty (asEvents bs)) with
  | .next t => some (t.rsp, t.port)
  | .fault _ => none
  | .refused _ => none

/-! ### WellFormed: each check refuses an ill-formed term -/

theorem test_request_too_short_refused : Request.wellFormed ⟨0x21, [0x00]⟩ = false := by decide
theorem test_request_too_long_refused : Request.wellFormed ⟨0x15, [0x00, 0x00]⟩ = false := by decide
theorem test_line_operand_count_refused : AsmLine.wellFormed (.op .angle [1]) = false := by decide
theorem test_line_operand_range_refused : AsmLine.wellFormed (.op .mag [256]) = false := by decide
theorem test_pseudo_count_refused : AsmLine.wellFormed (.pseudo .tempW [1, 2]) = false := by decide
theorem test_pseudo_range_refused : AsmLine.wellFormed (.pseudo .id16W [65536]) = false := by decide
theorem test_xyzw_status_range_refused : AsmLine.wellFormed (.pseudo .xyzW [0, 0, 0, 256]) = false := by decide
theorem test_raw_count_refused : AsmLine.wellFormed (.raw 0x63 [1, 2]) = false := by decide
theorem test_instr_wellformed : Instr.wellFormed (.xyz 1 2 3 4 5 6 7) = true := by decide

/-! ### Decoding: each command byte written out bit by bit, RSV, LEN, OP (R39, R42) -/

theorem test_decode_angle : decodeBytes [0b00100001, 0x0B, 0x48, 0xFF] = .instr (.angle 0x0B 0x48) [0xFF] := by decide
theorem test_decode_field : decodeBytes [0b00100010, 0x40, 0x01] = .instr (.field 0x40 0x01) [] := by decide
theorem test_decode_xyz :
    decodeBytes [0b01110011, 1, 2, 3, 4, 5, 6, 7] = .instr (.xyz 1 2 3 4 5 6 7) [] := by decide
theorem test_decode_temp : decodeBytes [0b00100100, 0x64, 0x44] = .instr (.temp 0x64 0x44) [] := by decide
theorem test_decode_mag : decodeBytes [0b00010101, 0x65] = .instr (.mag 0x65) [] := by decide
theorem test_decode_id16 : decodeBytes [0b00100110, 0x49, 0x54] = .instr (.id16 0x49 0x54) [] := by decide
theorem test_decode_rsv : decodeBytes [0b10100001, 0x00, 0x10] = .rejected .errOp 0xA1 [] := by decide
theorem test_decode_short : decodeBytes [0b01100011, 1, 2, 3, 4, 5, 6] = .rejected .errLen 0x63 [] := by decide
theorem test_decode_incomplete : decodeBytes [0b00100001, 0x0B] = .incomplete := by decide
theorem test_table_word : decodeTableWord 8 0x73 = some (.xyz 0 0 0 0 0 0 0) := by decide
theorem test_table_word_with_bytes : decodeTableWord 24 0x480B21 = some (.angle 0x0B 0x48) := by decide
theorem test_frame_p4 : (frameAll [0x05, 0x21, 0x00, 0x10, 0xFF, 1, 2, 3, 4, 5, 6, 7, 0x24, 0x4F, 0x00]).map Request.cmd =
    [0x05, 0x21, 0xFF, 0x24] := by decide

/-! ### Steps on the spec's vectors, RSP before them not zero -/

theorem test_angle_180_5 : after [0x21, 0x0B, 0x48] = some (⟨0x00002101, 0x43348000, 0, 0⟩, []) := by decide
theorem test_angle_ignores_high_bits : after [0x21, 0x80, 0x10] = some (⟨0x00002101, 0x3F800000, 0, 0⟩, []) := by decide
theorem test_field_lowest : after [0x22, 0x80, 0x00] = some (⟨0x00002201, 0xC2200000, 0, 0⟩, []) := by decide
theorem test_field_1234 : after [0x22, 0x12, 0x34] = some (⟨0x00002201, 0x40B60800, 0, 0⟩, []) := by decide
theorem test_xyz_mixed : after [0x73, 0x12, 0x34, 0xFE, 0xDC, 0x0C, 0xCD, 0x81, 0x21] =
    some (⟨0x00007301, 0x40B60800, 0xBEB68000, 0x40800200⟩, [.byte 0x21]) := by decide
theorem test_temp_below_zero : after [0x24, 0x80, 0x3E] = some (⟨0x00002401, 0xBDBB6BC4, 0, 0⟩, []) := by decide
theorem test_temp_unsigned : after [0x24, 0x00, 0x80] = some (⟨0x00002401, 0x438B7480, 0, 0⟩, []) := by decide
theorem test_mag_both_modes : (magdec .raw 0xC7, magdec .digitwise 0xC7) = (199, 31) := by decide
theorem test_id16_not_sign_extended : after [0x26, 0x01, 0x80] = some (⟨0x00002601, 0x00008001, 0, 0⟩, []) := by decide
theorem test_err_op_consumes : after [0xFF, 1, 2, 3, 4, 5, 6, 7, 0x24] =
    some (⟨0x0000FF02, 0, 0, 0⟩, [.byte 0x24]) := by decide
theorem test_err_len : after [0x25, 0x01, 0x02] = some (⟨0x00002503, 0, 0, 0⟩, []) := by decide
theorem test_err_op_before_err_len : after [0xA5, 0x01, 0x02] = some (⟨0x0000A502, 0, 0, 0⟩, []) := by decide

/-- The step runs the table's word as the first request after reset. -/
theorem test_fetch_word : step (State.reset.withFetchWord 8 0x26) = exec (.id16 0 0) State.reset := rfl

/-- A read before the request is whole is served first and leaves its bytes; a reset discards them (R87). -/
theorem test_read_between_bytes :
    nextEvent [.byte 0x15, .read 1, .byte 0x65] = .read 1 [.byte 0x15, .byte 0x65] := by decide
theorem test_reset_discards : nextEvent [.byte 0x15, .reset, .byte 0x65] = .reset [.byte 0x65] := by decide

/-- A whole request whose step has not happened when the host's next act lands: a reset discards it (R87), a read leaves
it to be stepped afterwards (R30), and with neither it is stepped (R97). -/
theorem test_reset_discards_held :
    nextEvent [.byte 0x15, .heldByte 0x65, .reset, .byte 0x80] = .reset [.byte 0x80] := by decide
theorem test_read_before_held_step :
    nextEvent [.byte 0x15, .heldByte 0x65, .read 0, .reset] = .read 0 [.byte 0x15, .heldByte 0x65, .reset] := by decide
theorem test_held_stepped : nextEvent [.heldByte 0x15, .heldByte 0x65] = .request ⟨0x15, [0x65]⟩ [] := by decide
theorem test_held_within_request :
    nextEvent [.heldByte 0x15, .byte 0x65, .reset] = .request ⟨0x15, [0x65]⟩ [.reset] := by decide

/-! ### The assembler on the text of program P1 (95_test_vectors.md), and a line it rejects -/

theorem test_assemble_p1 : assembleText "ANGLEW 0x0B48 ; 21 0B 48\nTEMPW  18109 ; sent LSB first".toList =
    some [0x21, 0x0B, 0x48, 0x24, 0xBD, 0x46] := by decide
theorem test_assemble_raw : assembleText ".cmd 0x27, 0x12, 52".toList = some [0x27, 0x12, 0x34] := by decide
theorem test_assemble_rejects_count : assembleText "MAG 1, 2".toList = none := by decide

theorem test_assemble_rejects_whole_program : assembleText "MAG 1\nMAG 1, 2".toList = none := by decide

/-! ### Witnesses: for each statement with hypotheses, values that meet them all together -/

theorem witness_ResetClearsResponse_reset :
    notStepped [.byte 0x21, .byte 0x00] = true ∧ (dirty ([.byte 0x21, .byte 0x00] ++ .reset :: [])).port =
      [.byte 0x21, .byte 0x00] ++ .reset :: [] := by decide

theorem witness_ResetClearsResponse_idle :
    step (dirty [.reset]) = .next ⟨Rsp.zero, [], [.wasReset]⟩ ∧ statusOf Rsp.zero.rsp0 = .idle := ⟨rfl, by decide⟩

theorem dirtyReset_inv : State.Inv ⟨Rsp.zero, [.byte 0x80], []⟩ := ⟨⟨by decide, rfl⟩, rfl, trivial⟩

theorem witness_StepKeepsInvariant :
    State.Inv ⟨Rsp.zero, [.byte 0x80], []⟩ ∧ ∃ t, step ⟨Rsp.zero, [.byte 0x80], []⟩ = .next t ∧ t.rsp ≠ Rsp.zero :=
  ⟨dirtyReset_inv, _, rfl, by decide⟩

theorem witness_DecodeAndEncodeAgree : Instr.wellFormed (.mag 0xFF) = true := by decide

theorem witness_StepRunsTheDecodedInstruction_instr :
    decodeBytes [0x15, 0x65, 0x21] = .instr (.mag 0x65) [0x21] ∧
      (dirty (asEvents [0x15, 0x65, 0x21] ++ [.reset])).port = asEvents [0x15, 0x65, 0x21] ++ [.reset] := by decide

theorem witness_StepRunsTheDecodedInstruction_rejected :
    decodeBytes [0x80, 0x21] = .rejected .errOp 0x80 [0x21] ∧
      (dirty (asEvents [0x80, 0x21] ++ [])).port = asEvents [0x80, 0x21] ++ [] := by decide

theorem witness_StepRunsTheDecodedInstruction_taken :
    takes [.byte 0x15, .heldByte 0x65] (Instr.mag 0x65).request [.byte 0x21] = true ∧
      (dirty ([.byte 0x15, .heldByte 0x65] ++ [.byte 0x21])).port = [.byte 0x15, .heldByte 0x65] ++ [.byte 0x21] := by decide

theorem witness_StepRunsTheDecodedInstruction_taken_rejected :
    takes [.heldByte 0x80] ⟨0x80, []⟩ [] = true ∧ decodeRequest 0x80 [] = .error .errOp ∧
      (dirty ([.heldByte 0x80] ++ [])).port = [.heldByte 0x80] ++ [] := ⟨by decide, rfl, by decide⟩

theorem witness_RequestBoundaries_step :
    takes (asEvents [0xFF, 1, 2, 3, 4, 5, 6, 7]) ⟨0xFF, [1, 2, 3, 4, 5, 6, 7]⟩ [.reset] = true ∧
      (dirty (asEvents [0xFF, 1, 2, 3, 4, 5, 6, 7] ++ [.reset])).port =
        asEvents [0xFF, 1, 2, 3, 4, 5, 6, 7] ++ [.reset] := by decide

theorem witness_RequestBoundaries_stream :
    ∀ r ∈ ([⟨0x05, []⟩, ⟨0x21, [0x00, 0x10]⟩] : List Request), r.data.length = r.cmd.toNat / 16 % 8 := by decide

theorem witness_OpcodeMap_valid : ([0x00] : List Byte).length = (0x15 : Byte).toNat / 16 % 8 := by decide

theorem witness_OpcodeMap_decoded : decodeRequest 0x15 [0x00] = .ok (.mag 0x00) := by rfl

theorem witness_OpcodeMap_reserved :
    ([] : List Byte).length = (0x07 : Byte).toNat / 16 % 8 ∧ ((0x07 : Byte).toNat % 16 = 0 ∨ 7 ≤ (0x07 : Byte).toNat % 16) := by
  decide

theorem witness_OpcodeMap_reserved_zero :
    ([] : List Byte).length = (0x00 : Byte).toNat / 16 % 8 ∧ ((0x00 : Byte).toNat % 16 = 0 ∨ 7 ≤ (0x00 : Byte).toNat % 16) := by
  decide

theorem witness_IllegalCommandBytes : ([] : List Byte).length = (0x80 : Byte).toNat / 16 % 8 := by decide

theorem witness_LengthMismatchBytes : ([] : List Byte).length = (0x01 : Byte).toNat / 16 % 8 := by decide

theorem witness_ErrOpReported_rsv :
    takes (asEvents [0xA1, 0x00, 0x10]) ⟨0xA1, [0x00, 0x10]⟩ [] = true ∧ 128 ≤ (0xA1 : Byte).toNat ∧
      (dirty (asEvents [0xA1, 0x00, 0x10] ++ [])).port = asEvents [0xA1, 0x00, 0x10] ++ [] := by decide

theorem witness_ErrOpReported_reserved_op :
    takes [.byte 0x0F] ⟨0x0F, []⟩ [.reset] = true ∧ 7 ≤ (0x0F : Byte).toNat % 16 ∧
      (dirty ([.byte 0x0F] ++ [.reset])).port = [.byte 0x0F] ++ [.reset] := by decide

theorem witness_ErrLenReported_two :
    takes (asEvents [0x16, 0x00]) ⟨0x16, [0x00]⟩ [] = true ∧ (0x16 : Byte).toNat < 128 ∧
      ((0x16 : Byte).toNat % 16 = 6 ∧ (0x16 : Byte).toNat / 16 ≠ 2) ∧
      (dirty (asEvents [0x16, 0x00] ++ [])).port = asEvents [0x16, 0x00] ++ [] := by decide

theorem witness_ErrLenReported_xyz :
    takes (asEvents [0x63, 1, 2, 3, 4, 5, 6]) ⟨0x63, [1, 2, 3, 4, 5, 6]⟩ [] = true ∧ (0x63 : Byte).toNat < 128 ∧
      ((0x63 : Byte).toNat % 16 = 3 ∧ (0x63 : Byte).toNat / 16 ≠ 7) ∧
      (dirty (asEvents [0x63, 1, 2, 3, 4, 5, 6] ++ [])).port = asEvents [0x63, 1, 2, 3, 4, 5, 6] ++ [] := by decide

theorem witness_ErrLenReported_mag :
    takes [.heldByte 0x05] ⟨0x05, []⟩ [] = true ∧ (0x05 : Byte).toNat < 128 ∧
      ((0x05 : Byte).toNat % 16 = 5 ∧ (0x05 : Byte).toNat / 16 ≠ 1) ∧
      (dirty ([.heldByte 0x05] ++ [])).port = [.heldByte 0x05] ++ [] := by decide

theorem witness_ErrorResponse_errOp :
    Request.wellFormed ⟨0x80, []⟩ = true ∧ decodeRequest 0x80 [] = .error .errOp := ⟨by decide, rfl⟩

theorem witness_ErrorResponse_errLen :
    Request.wellFormed ⟨0x05, []⟩ = true ∧ decodeRequest 0x05 [] = .error .errLen := ⟨by decide, rfl⟩

theorem witness_ErrOpHasPriority_both :
    ([] : List Byte).length = (0x81 : Byte).toNat / 16 % 8 ∧ 128 ≤ (0x81 : Byte).toNat ∧
      (0x81 : Byte).toNat % 16 = Op.angle.cmd.toNat % 16 ∧ ([] : List Byte).length ≠ Op.angle.requiredLen := by decide

theorem witness_ErrOpHasPriority_errLen : decodeRequest 0x06 [] = .error .errLen := rfl

theorem witness_ErrOpHasPriority_answered :
    Request.wellFormed ⟨0x80, []⟩ = true ∧ AnswersWith ⟨0x80, []⟩ (rspOf 0x80 2 0 0 0) := by
  refine ⟨by decide, fun s p rest ht hp => ?_⟩
  rw [step_request ht hp]
  rfl

theorem witness_TwoErrorConditions : Request.wellFormed ⟨0x15, [0xFF]⟩ = true := by decide

theorem witness_TwoErrorConditions_encoded :
    (dirty (asEvents (encode (.mag 1)) ++ [.reset])).port = asEvents (encode (.mag 1)) ++ [.reset] := by decide

theorem witness_TwoErrorConditions_valid :
    (0x15 : Byte) = 0x15 ∧ takes (asEvents [0x15, 0xFF]) ⟨0x15, [0xFF]⟩ [.read 0] = true ∧
      (dirty (asEvents [0x15, 0xFF] ++ [.read 0])).port = asEvents [0x15, 0xFF] ++ [.read 0] := by decide

theorem witness_AnswersWith :
    takes [.byte 0x15, .heldByte 0x65] ⟨0x15, [0x65]⟩ [.byte 0x21] = true ∧
      (dirty ([.byte 0x15, .heldByte 0x65] ++ [.byte 0x21])).port = [.byte 0x15, .heldByte 0x65] ++ [.byte 0x21] := by decide

theorem witness_WrongLengthReported (op : Op) :
    (op.cmd % 16).toNat < 128 ∧ (op.cmd % 16).toNat % 16 = op.cmd.toNat % 16 ∧
      ([] : List Byte).length = (op.cmd % 16).toNat / 16 ∧ ([] : List Byte).length ≠ op.requiredLen := by
  cases op <;> decide

theorem witness_EveryOperationCompletesInItsFrame : Instr.op (.angle 0 0) ≠ .xyz := by decide

theorem witness_MagneticOutputIsExact : 1 ≤ 512 ∧ 512 ≤ 512 := by decide

theorem witness_MagneticProperties_odd : (0x7FFF : Half) ≠ 0x8000 := by decide

theorem witness_MagneticProperties_order : 1 ≤ 40 ∧ (0x8000 : Half).toInt < (0x7FFF : Half).toInt := by decide

theorem witness_AngleDoesNotWrap : 360 ≤ (256 * (0x16 : Byte).toNat + (0x80 : Byte).toNat) % 8192 / 16 := by decide

theorem witness_AngleProperties_step : (0x000E : Half).toNat % 16 < 15 := by decide

theorem witness_AngleProperties_order : (0xE000 : Half).toNat % 8192 < (0x1FFF : Half).toNat % 8192 := by decide

theorem witness_TemperatureIsNearest : 65535 ≤ 65535 ∧ (0 : Nat) ≤ 65535 := by decide

theorem witness_TemperatureProperties : (17508 : Nat) < 17509 ∧ 17509 ≤ 65535 := by decide

theorem witness_MagnitudeFunctions : 255 < 10 ^ 3 := by decide

theorem witness_MagnitudeProperties_ten : 10 ≤ (10 : Byte).toNat := by decide

theorem witness_MagnitudeProperties_range : 31 ≤ 31 := by decide

theorem witness_RequestStep_illegal :
    Request.wellFormed ⟨0x07, []⟩ = true ∧ (128 ≤ (0x07 : Byte).toNat ∨ (0x07 : Byte).toNat % 16 = 0 ∨ 7 ≤ (0x07 : Byte).toNat % 16) := by
  decide

theorem witness_RequestStep_mismatch :
    Request.wellFormed ⟨0x03, []⟩ = true ∧ (0x03 : Byte).toNat < 128 ∧ (0x03 : Byte).toNat % 16 = Op.xyz.cmd.toNat % 16 ∧
      (0x03 : Byte).toNat / 16 ≠ Op.xyz.requiredLen := by decide

theorem witness_RequestStep_encoded :
    takes (asEvents (encode (.mag 1))) (Instr.mag 1).request [.read 0] = true ∧
      (dirty (asEvents (encode (.mag 1)) ++ [.read 0])).port = asEvents (encode (.mag 1)) ++ [.read 0] := by decide

theorem witness_RequestsAreIdempotent_read :
    notStepped [.byte 0x15, .heldByte 0] = true ∧ (dirty ([.byte 0x15, .heldByte 0] ++ .read 3 :: [])).port =
      [.byte 0x15, .heldByte 0] ++ .read 3 :: [] := by decide

theorem witness_RequestsAreIdempotent_once :
    takes (asEvents [0x15, 9]) ⟨0x15, [9]⟩ [] = true ∧ (dirty (asEvents [0x15, 9] ++ [])).port =
      asEvents [0x15, 9] ++ [] := by decide

theorem witness_RequestsAreIdempotent_twice :
    takes (asEvents [0x15, 9]) ⟨0x15, [9]⟩ (asEvents [0x15, 9] ++ []) = true ∧
      takes (asEvents [0x15, 9]) ⟨0x15, [9]⟩ [] = true ∧
      (dirty (asEvents [0x15, 9] ++ (asEvents [0x15, 9] ++ []))).port =
        asEvents [0x15, 9] ++ (asEvents [0x15, 9] ++ []) := by decide

theorem witness_HostReadsReturnCurrentWord_twice :
    notStepped [] = true ∧ (dirty ([] ++ .read 3 :: .read 3 :: [])).port = [] ++ .read 3 :: .read 3 :: [] := by decide

theorem witness_HostReadsReturnCurrentWord_once :
    notStepped [.byte 0x21, .byte 0] = true ∧ (dirty ([.byte 0x21, .byte 0] ++ .read 0 :: [])).port =
      [.byte 0x21, .byte 0] ++ .read 0 :: [] := by decide

theorem witness_HostReadsReturnCurrentWord_written :
    ∃ t, step (dirty (asEvents [0x80])) = .next t ∧ t.rsp ≠ (dirty (asEvents [0x80])).rsp := ⟨_, rfl, by decide⟩

theorem witness_RequestsAndReadsInOrder :
    (∀ x ∈ ([(⟨0x80, []⟩, [0, 3]), (⟨0x15, [1]⟩, [])] : List (Request × List (Fin 4))), x.1.wellFormed = true) ∧
      (dirty (asEvents [0x80] ++ [.read 0, .read 3] ++ asEvents [0x15, 1] ++ [.reset])).port =
        ([(⟨0x80, []⟩, [0, 3]), (⟨0x15, [1]⟩, [])] : List (Request × List (Fin 4))).flatMap
          (fun x => asEvents x.1.bytes ++ x.2.map PortEvent.read) ++ [.reset] := by decide

theorem witness_ResetDiscardsStartedRequest :
    frameRequest [0x73, 1, 2, 3, 4, 5, 6] = none ∧
      (dirty (asEvents [0x73, 1, 2, 3, 4, 5, 6] ++ .reset :: [.byte 7])).port =
        asEvents [0x73, 1, 2, 3, 4, 5, 6] ++ .reset :: [.byte 7] := by decide

theorem witness_ResetDiscardsStartedRequest_whole :
    Request.wellFormed ⟨0x15, [9]⟩ = true ∧ Request.bytes ⟨0x15, [9]⟩ = [0x15] ++ [9] ∧
      (dirty (asEvents [0x15] ++ .heldByte 9 :: .reset :: [])).port = asEvents [0x15] ++ .heldByte 9 :: .reset :: [] := by
  decide

theorem witness_ResetDiscardsStartedRequest_deliveries :
    notStepped [.byte 0x15, .heldByte 9] = true ∧ (dirty ([.byte 0x15, .heldByte 9] ++ .reset :: [])).port =
      [.byte 0x15, .heldByte 9] ++ .reset :: [] := by decide

/-- A state right after a reset that discarded a whole request not yet stepped, with the given port. -/
theorem afterReset_of_port (p : List PortEvent) : AfterReset ⟨Rsp.zero, p, [.wasReset]⟩ :=
  .inr ⟨dirty (.byte 0x15 :: .heldByte 9 :: .reset :: p), [.byte 0x15, .heldByte 9], rfl, rfl, rfl⟩

theorem witness_ReadyAtOnceAfterReset_reset :
    notStepped [.byte 0x15, .heldByte 9] = true ∧ (dirty ([.byte 0x15, .heldByte 9] ++ .reset :: [.byte 0x80])).port =
      [.byte 0x15, .heldByte 9] ++ .reset :: [.byte 0x80] := by decide

theorem witness_ReadyAtOnceAfterReset_request :
    AfterReset ⟨Rsp.zero, asEvents [0x26, 1, 2] ++ [.read 1], [.wasReset]⟩ ∧
      takes (asEvents [0x26, 1, 2]) (Instr.id16 1 2).request [.read 1] = true := ⟨afterReset_of_port _, by decide⟩

theorem witness_ReadyAtOnceAfterReset_illegal :
    AfterReset ⟨Rsp.zero, [.byte 0x80] ++ [], [.wasReset]⟩ ∧ takes [.byte 0x80] ⟨0x80, []⟩ [] = true ∧
      128 ≤ (0x80 : Byte).toNat := ⟨afterReset_of_port _, by decide, by decide⟩

theorem witness_ReadyAtOnceAfterReset_mismatch :
    AfterReset ⟨Rsp.zero, [.byte 0x03] ++ [], [.wasReset]⟩ ∧ takes [.byte 0x03] ⟨0x03, []⟩ [] = true ∧
      (0x03 : Byte).toNat < 128 ∧ (0x03 : Byte).toNat % 16 = Op.xyz.cmd.toNat % 16 ∧
      (0x03 : Byte).toNat / 16 ≠ Op.xyz.requiredLen := ⟨afterReset_of_port _, by decide, by decide, by decide, by decide⟩

theorem witness_ReadyAtOnceAfterReset_read_first :
    AfterReset ⟨Rsp.zero, [.byte 0x21] ++ .read 0 :: [], [.wasReset]⟩ ∧ notStepped [.byte 0x21] = true :=
  ⟨afterReset_of_port _, by decide⟩

theorem witness_ReadyAtOnceAfterReset_read : (dirty (.reset :: .read 0 :: [])).port = .reset :: .read 0 :: [] := by decide

theorem witness_StatusWordLayout :
    takes (asEvents [0xF0, 1, 2, 3, 4, 5, 6, 7]) ⟨0xF0, [1, 2, 3, 4, 5, 6, 7]⟩ [] = true ∧
      (dirty (asEvents [0xF0, 1, 2, 3, 4, 5, 6, 7] ++ [])).port = asEvents [0xF0, 1, 2, 3, 4, 5, 6, 7] ++ [] := by decide

theorem witness_StatusMeaning_request :
    takes [.byte 0x15, .heldByte 7] ⟨0x15, [7]⟩ [.byte 0x21] = true ∧
      (dirty ([.byte 0x15, .heldByte 7] ++ [.byte 0x21])).port = [.byte 0x15, .heldByte 7] ++ [.byte 0x21] := by decide

theorem witness_StatusMeaning_invariant : State.Inv ⟨Rsp.zero, [.byte 0x80], []⟩ := dirtyReset_inv

/-- A state that meets the invariant with a response written: the error response to command byte 0x80. -/
theorem witness_StatusMeaning_responded :
    State.Inv ⟨⟨0x00008002, 0, 0, 0⟩, [], [.response ⟨0x00008002, 0, 0, 0⟩]⟩ :=
  have legal : Rsp.Legal ⟨0x00008002, 0, 0, 0⟩ := ⟨by decide, .inl (by decide), rfl, rfl, rfl⟩
  ⟨legal, rfl, legal, by decide, trivial⟩

theorem witness_AssembledProgramsAreRequests_op :
    ([0, 255] : List Nat).length = Op.temp.requiredLen ∧ ∀ n ∈ ([0, 255] : List Nat), n < 256 := by decide

theorem witness_AssembledProgramsAreRequests_rejected :
    ¬ (([256] : List Nat).length = Op.mag.requiredLen ∧ ∀ n ∈ ([256] : List Nat), n < 256) := by decide

theorem witness_AssembledProgramsAreRequests_raw :
    255 < 256 ∧ (∀ n ∈ ([1, 2, 3, 4, 5, 6, 255] : List Nat), n < 256) ∧
      ([1, 2, 3, 4, 5, 6, 255] : List Nat).length = 255 / 16 % 8 := by decide

theorem witness_AssembledProgramsAreRequests_raw_rejected :
    ¬ (0x15 < 256 ∧ (∀ n ∈ ([] : List Nat), n < 256) ∧ ([] : List Nat).length = 0x15 / 16 % 8) := by decide

theorem witness_AssembledProgramsAreRequests_pseudo_rejected :
    Pseudo.tempW ≠ .xyzW ∧ ¬ (([65536] : List Nat).length = 1 ∧ ∀ n ∈ ([65536] : List Nat), n < 65536) := by decide

theorem witness_AssembledProgramsAreRequests_xyzw_rejected :
    ∀ x y z st : Nat, [0, 0, 0, 256] = [x, y, z, st] → ¬ (x < 65536 ∧ y < 65536 ∧ z < 65536 ∧ st < 256) := by
  rintro x y z st h ⟨-, -, -, hst⟩
  cases h
  exact absurd hst (by decide)

theorem witness_AssembledProgramsAreRequests_program :
    assemble [.blank, .op .mag [7], .raw 0x80 []] = some [0x15, 7, 0x80] := by decide

end Sys2Proof.Tests
end

section
/-! SUPPORT. The status word a request leaves: its STATUS is the one its decoding names and its CMD is the request's own
(spec/10_state.md R14, R15; spec/30_encoding.md R46). -/

namespace Sys2Proof.Machine

/-! ### Each STATUS value and its number -/

theorem Status.code_toNat_injective : Function.Injective fun st : Status => st.code.toNat := by
  intro a b
  cases a <;> cases b <;> decide

theorem Status.one_le_code_toNat {st : Status} (h : st ≠ .idle) : 1 ≤ st.code.toNat := by
  cases st
  case idle => exact absurd rfl h
  all_goals decide

theorem statusOf_code_toNat (w : Word) : (statusOf w).code.toNat = w.toNat % 4 := by
  have hlow : (w.extractLsb' 0 2).toNat = w.toNat % 4 := by simp
  have hlt : w.toNat % 4 < 4 := Nat.mod_lt _ (by decide)
  rw [statusOf, hlow]
  interval_cases w.toNat % 4 <;> rfl

/-- STATUS is the low two bits of RSP0, read as a number (R14, R15). -/
theorem statusOf_eq_iff (w : Word) (st : Status) : statusOf w = st ↔ w.toNat % 4 = st.code.toNat := by
  rw [← statusOf_code_toNat]
  exact Status.code_toNat_injective.eq_iff.symm

/-! ### The STATUS a decoding is answered with -/

/-- The STATUS a request's decoding is answered with (R46). -/
def decodedStatus : Except ErrorKind Instr → Status
  | .ok _ => .ok
  | .error e => errorStatus e

theorem errorStatus_ne_idle (e : ErrorKind) : errorStatus e ≠ .idle := by cases e <;> decide

theorem errorStatus_ne_ok (e : ErrorKind) : errorStatus e ≠ .ok := by cases e <;> decide

theorem errorStatus_injective : Function.Injective errorStatus := by
  intro a b
  cases a <;> cases b <;> decide

theorem decodedStatus_ne_idle : ∀ d : Except ErrorKind Instr, decodedStatus d ≠ .idle
  | .ok _ => nofun
  | .error e => errorStatus_ne_idle e

theorem decodedStatus_eq_ok : ∀ {d : Except ErrorKind Instr}, decodedStatus d = .ok ↔ ∃ i, d = .ok i
  | .ok i => iff_of_true rfl ⟨i, rfl⟩
  | .error e => iff_of_false (errorStatus_ne_ok e) nofun

theorem decodedStatus_eq_errorStatus {e : ErrorKind} :
    ∀ {d : Except ErrorKind Instr}, decodedStatus d = errorStatus e ↔ d = .error e
  | .ok _ => iff_of_false (errorStatus_ne_ok e).symm nofun
  | .error _ => by rw [Except.error.injEq]; exact errorStatus_injective.eq_iff

/-! ### Which error a request decodes to -/

/-- No command byte meets both error conditions (spec/60_exceptions.md R78). -/
theorem MismatchedCmd.not_illegalCmd {cmd : Byte} (h : MismatchedCmd cmd) : ¬ IllegalCmd cmd := by
  obtain ⟨hrsv, op, hop, -⟩ := h
  simp [IllegalCmd, hrsv, hop]

theorem request_not_illegalCmd (i : Instr) : ¬ IllegalCmd i.request.cmd := by
  simp [IllegalCmd, Instr.request]

theorem request_not_mismatchedCmd (i : Instr) : ¬ MismatchedCmd i.request.cmd := by
  simp [MismatchedCmd, Instr.request]

/-- ERR_OP is the answer to an illegal command byte and to no other (spec/60_exceptions.md R75). -/
theorem decodeRequest_eq_errOp {r : Request} (hw : r.wellFormed = true) :
    decodeRequest r.cmd r.data = .error .errOp ↔ IllegalCmd r.cmd := by
  obtain ⟨hd, hill⟩ | ⟨hd, hmis⟩ | ⟨i, hd, rfl⟩ := decodeRequest_cases r hw
  · exact iff_of_true hd hill
  · exact iff_of_false (by simp [hd]) (MismatchedCmd.not_illegalCmd hmis)
  · exact iff_of_false (by simp [hd]) (request_not_illegalCmd i)

/-- ERR_LEN is the answer to a length mismatch and to nothing else (spec/60_exceptions.md R76). -/
theorem decodeRequest_eq_errLen {r : Request} (hw : r.wellFormed = true) :
    decodeRequest r.cmd r.data = .error .errLen ↔ MismatchedCmd r.cmd := by
  obtain ⟨hd, hill⟩ | ⟨hd, hmis⟩ | ⟨i, hd, rfl⟩ := decodeRequest_cases r hw
  · exact iff_of_false (by simp [hd]) fun hmis => hmis.not_illegalCmd hill
  · exact iff_of_true hd hmis
  · exact iff_of_false (by simp [hd]) (request_not_mismatchedCmd i)

/-- A whole request that decodes to an instruction is that instruction's own request. -/
theorem eq_request_of_decodeRequest {r : Request} {i : Instr} (hw : r.wellFormed = true)
    (h : decodeRequest r.cmd r.data = .ok i) : r = i.request := by
  obtain ⟨hd, -⟩ | ⟨hd, -⟩ | ⟨j, hd, hr⟩ := decodeRequest_cases r hw
  · simp [hd] at h
  · simp [hd] at h
  · rw [hr, Except.ok.inj (hd.symm.trans h)]

/-! ### The step on a request -/

section Request
variable {s : State} {p : List PortEvent} {r : Request} {rest : List PortEvent}

/-- A step that takes a request leaves the request's command byte and the STATUS of its decoding in RSP0 (R46). -/
theorem step_request_statusWord (h : takes p r rest = true) (hp : s.port = p ++ rest) :
    ∃ t, step s = .next t ∧ t.rsp.rsp0 = statusWord r.cmd (decodedStatus (decodeRequest r.cmd r.data)) := by
  obtain ⟨-, hw, -, -⟩ := takes_eq_true.1 h
  rw [step_request h hp]
  cases hd : decodeRequest r.cmd r.data with
  | error e => exact ⟨_, rfl, rfl⟩
  | ok i =>
    obtain ⟨a, b, c, hexec⟩ := exec_shape i
    exact ⟨_, hexec _, by rw [eq_request_of_decodeRequest hw hd]; rfl⟩

/-- No step that takes a request writes IDLE (R15). -/
theorem step_request_ne_idle {t : State} (h : takes p r rest = true) (hp : s.port = p ++ rest) (hs : step s = .next t) :
    statusOf t.rsp.rsp0 ≠ .idle := by
  obtain ⟨u, hu, hword⟩ := step_request_statusWord h hp
  obtain rfl : u = t := Host.Outcome.next.inj (hu.symm.trans hs)
  rw [hword, statusOf_statusWord]
  exact decodedStatus_ne_idle _

end Request

/-! ### STATUS and the history -/

/-- RSP's reset value reads IDLE (R23). -/
theorem statusOf_zero : statusOf Rsp.zero.rsp0 = .idle := by decide

/-- After a coherent history the response in force is IDLE exactly when none was written since the last reset: reset alone
sets IDLE, and no recorded response carries it (R15). -/
theorem statusOf_lastRsp_eq_idle {tr : List Observation} (h : TraceCoherent tr) :
    statusOf (lastRsp tr).rsp0 = .idle ↔ respondedSinceReset tr = false := by
  induction tr with
  | nil => exact iff_of_true statusOf_zero rfl
  | cons o earlier ih =>
    cases o with
    | response r =>
      obtain ⟨-, hne, -⟩ := h
      exact iff_of_false hne nofun
    | readOut k w =>
      obtain ⟨-, hearlier⟩ := h
      exact ih hearlier
    | wasReset => exact iff_of_true statusOf_zero rfl

end Sys2Proof.Machine
end

section
/-! The statements about the response register's reset value, layout and STATUS (spec/10_state.md R14, R15, R23). -/

namespace Sys2Proof.Machine

/-- Settles O1: a request never leaves IDLE and a read and waiting leave RSP alone, so a step that ends in IDLE either was
a reset or did not take a request. -/
theorem resetClearsResponse : Obligations.ResetClearsResponse := by
  refine ⟨⟨rfl, statusOf_zero, by decide⟩, fun s p rest hn hp => ⟨_, step_reset hn hp, rfl⟩, fun s t hs hidle => ?_⟩
  have noRequest : ∀ (p : List PortEvent) (r : Request) (rest : List PortEvent), takes p r rest = true →
      s.port ≠ p ++ rest := fun p r rest h hp => step_request_ne_idle h hp hs hidle
  obtain ⟨p, r, rest, h, hp⟩ | ⟨p, k, rest, hn, hp⟩ | ⟨p, rest, hn, hp⟩ | ⟨hd, hframe⟩ := port_cases s.port
  · exact absurd hp (noRequest p r rest h)
  · obtain rfl := Host.Outcome.next.inj ((step_read hn hp).symm.trans hs)
    exact .inr ⟨rfl, noRequest⟩
  · exact .inl ⟨p, rest, hn, hp⟩
  · obtain rfl := Host.Outcome.next.inj ((step_wait hd hframe).symm.trans hs)
    exact .inr ⟨rfl, noRequest⟩

/-- Settles O42: RSP0 after a request is `256 * CMD + code` with a code from 1 to 3, which fixes every bit field. -/
theorem statusWordLayout : Obligations.StatusWordLayout := by
  refine ⟨fun s p r rest h hp => ?_, rfl⟩
  obtain ⟨t, hs, hword⟩ := step_request_statusWord h hp
  have hnum := statusWord_toNat r.cmd (decodedStatus (decodeRequest r.cmd r.data))
  rw [← hword] at hnum
  have hlow := Status.one_le_code_toNat (decodedStatus_ne_idle (decodeRequest r.cmd r.data))
  have hhigh := Status.code_toNat_lt (decodedStatus (decodeRequest r.cmd r.data))
  have hcmd := r.cmd.isLt
  exact ⟨t, hs, by omega, by omega, by omega, by omega⟩

/-- Settles O43: a request's STATUS is that of its decoding, and the invariant makes RSP the response in force after a
coherent history. -/
theorem statusMeaning : Obligations.StatusMeaning := by
  refine ⟨fun s p r rest h hp => ?_, fun s hinv => ?_, fun w => ?_⟩
  · obtain ⟨-, hw, -, -⟩ := takes_eq_true.1 h
    obtain ⟨t, hs, hword⟩ := step_request_statusWord h hp
    refine ⟨t, hs, ?_⟩
    rw [hword, statusOf_statusWord, ← decodeRequest_eq_errOp hw, ← decodeRequest_eq_errLen hw]
    exact ⟨decodedStatus_eq_ok, decodedStatus_eq_errorStatus (e := .errOp), decodedStatus_eq_errorStatus (e := .errLen),
      decodedStatus_ne_idle _⟩
  · rw [hinv.inForce]
    exact statusOf_lastRsp_eq_idle hinv.coherent
  · exact ⟨statusOf_eq_iff w .idle, statusOf_eq_iff w .ok, statusOf_eq_iff w .errOp, statusOf_eq_iff w .errLen⟩

end Sys2Proof.Machine
end

section
/-! SUPPORT. The response to a request depends on the request alone (spec/20_memory.md R33, spec/30_encoding.md R46). -/

namespace Sys2Proof.Machine

/-- One response fits every state and every way to deliver the request: neither decoding nor any operation reads the
state. -/
theorem exists_answersWith (r : Request) : ∃ a, AnswersWith r a := by
  cases hd : decodeRequest r.cmd r.data with
  | ok i =>
    obtain ⟨a, b, c, hexec⟩ := exec_shape i
    refine ⟨⟨statusWord i.op.cmd .ok, a, b, c⟩, fun s p rest h hp => ?_⟩
    rw [step_request h hp, hd]
    exact hexec _
  | error e =>
    refine ⟨⟨statusWord r.cmd (errorStatus e), 0, 0, 0⟩, fun s p rest h hp => ?_⟩
    rw [step_request h hp, hd]
    rfl

/-- A response given from every state is the one given after reset. -/
theorem AnswersWith.answer_eq {r : Request} {a : Rsp} (h : AnswersWith r a) (hw : r.wellFormed = true) :
    answer r = a := by
  have hs := h (State.reset.withPort (asEvents r.bytes)) (asEvents r.bytes) [] (takes_asEvents hw [])
    (List.append_nil _).symm
  rw [answer, hs]

/-- A step that takes the request leaves `answer r` in RSP, records it, and changes nothing else (R33). -/
theorem answersWith_answer (r : Request) : AnswersWith r (answer r) := by
  intro s p rest h hp
  obtain ⟨-, hw, -, -⟩ := takes_eq_true.1 h
  obtain ⟨a, ha⟩ := exists_answersWith r
  rw [ha.answer_eq hw]
  exact ha s p rest h hp

end Sys2Proof.Machine
end

section
/-! The statement about reads and repeated requests (spec/20_memory.md R33). -/

namespace Sys2Proof.Machine

/-- Settles O37: a read only adds to the history, and both deliveries of a request are given the same `answer r`. -/
theorem requestsAreIdempotent : Obligations.RequestsAreIdempotent := by
  refine ⟨fun s p k rest hn hp => ?_, fun s p r rest h hp => ?_, fun s p q r rest hfirst hsecond hp => ?_⟩
  · exact ⟨_, step_read hn hp, by simp⟩
  · exact ⟨_, answersWith_answer r s p rest h hp, rfl, rfl⟩
  · exact ⟨_, _, answersWith_answer r s p (q ++ rest) hfirst hp, answersWith_answer r _ q rest hsecond rfl, rfl⟩

end Sys2Proof.Machine
end

section
/-! SUPPORT. The command byte as a number, and the answer each of its three kinds is given (spec/30_encoding.md R42, R44 to
R46). -/

namespace Sys2Proof.Machine

/-! ### The kinds of command byte -/

theorem request_wellFormed_iff {r : Request} : r.wellFormed = true ↔ r.data.length = r.cmd.toNat / 16 % 8 := by
  rw [Request.wellFormed, beq_iff_eq, cmdLen_eq]

theorem illegalCmd_iff {cmd : Byte} :
    IllegalCmd cmd ↔ 128 ≤ cmd.toNat ∨ cmd.toNat % 16 = 0 ∨ 7 ≤ cmd.toNat % 16 := by
  rw [IllegalCmd, cmdRsv_eq, decide_eq_true_iff, opOfNibble_eq_none, cmdOp_toNat]

theorem not_illegalCmd_iff {cmd : Byte} :
    ¬ IllegalCmd cmd ↔ cmd.toNat < 128 ∧ 1 ≤ cmd.toNat % 16 ∧ cmd.toNat % 16 ≤ 6 := by
  rw [illegalCmd_iff]
  omega

/-- The six valid command bytes (R42). -/
theorem exists_eq_opCmd {cmd : Byte} : (∃ op : Op, cmd = op.cmd) ↔
    cmd = 0x21 ∨ cmd = 0x22 ∨ cmd = 0x73 ∨ cmd = 0x24 ∨ cmd = 0x15 ∨ cmd = 0x26 := by
  constructor
  · rintro ⟨op, rfl⟩
    cases op <;> decide
  · rintro (h | h | h | h | h | h)
    exacts [⟨.angle, h⟩, ⟨.field, h⟩, ⟨.xyz, h⟩, ⟨.temp, h⟩, ⟨.mag, h⟩, ⟨.id16, h⟩]

theorem opCmd_not_illegalCmd (op : Op) : ¬ IllegalCmd op.cmd := by simp [IllegalCmd]

theorem opCmd_not_mismatchedCmd (op : Op) : ¬ MismatchedCmd op.cmd := by simp [MismatchedCmd]

theorem mismatchedCmd_of_length {cmd : Byte} {op : Op} (hrsv : cmd.toNat < 128)
    (hop : cmd.toNat % 16 = op.cmd.toNat % 16) (hlen : cmd.toNat / 16 ≠ op.requiredLen) : MismatchedCmd cmd := by
  refine ⟨?_, op, (opOfNibble_eq_some _ op).2 ((cmdOp_toNat _).trans hop), ?_⟩
  · rw [cmdRsv_eq, decide_eq_false_iff_not]
    omega
  · rw [cmdLen_eq]
    omega

/-- A whole request names an instruction exactly when its command byte is some operation's. -/
theorem exists_decodeRequest_eq_ok {r : Request} (hw : r.wellFormed = true) :
    (∃ i, decodeRequest r.cmd r.data = .ok i) ↔ ∃ op : Op, r.cmd = op.cmd := by
  constructor
  · rintro ⟨i, hd⟩
    exact ⟨i.op, congrArg Request.cmd (eq_request_of_decodeRequest hw hd)⟩
  · rintro ⟨op, hop⟩
    obtain ⟨-, hill⟩ | ⟨-, hmis⟩ | ⟨i, hd, -⟩ := decodeRequest_cases r hw
    · exact absurd (hop ▸ hill) (opCmd_not_illegalCmd op)
    · exact absurd (hop ▸ hmis) (opCmd_not_mismatchedCmd op)
    · exact ⟨i, hd⟩

/-- A whole request is answered ERR_LEN exactly when its command byte is neither illegal nor some operation's. -/
theorem decodeRequest_eq_errLen_iff_neither {r : Request} (hw : r.wellFormed = true) :
    decodeRequest r.cmd r.data = .error .errLen ↔ ¬ IllegalCmd r.cmd ∧ ¬ ∃ op : Op, r.cmd = op.cmd := by
  rw [← decodeRequest_eq_errOp hw, ← exists_decodeRequest_eq_ok hw]
  obtain ⟨hd, -⟩ | ⟨hd, -⟩ | ⟨i, hd, -⟩ := decodeRequest_cases r hw <;> simp [hd]

/-- Data that decode to an instruction are as many as the command byte announces. -/
theorem wellFormed_of_decodeRequest {r : Request} {i : Instr} (h : decodeRequest r.cmd r.data = .ok i) :
    r.wellFormed = true := by
  rw [decodeRequest] at h
  split at h
  · cases h
  split at h
  · cases h
  next op _ =>
    split at h
    · cases h
    next hlen =>
      split at h
      next j hj =>
        obtain ⟨rfl, hdata⟩ := instrOf_eq_some.1 hj
        rw [Request.wellFormed, beq_iff_eq, ← hdata, j.operands_length, not_not.1 hlen]
      · cases h

/-! ### The answer to a request that decodes to an error -/

theorem statusWord_eq_ofNat (cmd : Byte) (st : Status) :
    statusWord cmd st = BitVec.ofNat 32 (256 * cmd.toNat + st.code.toNat) := by
  rw [← statusWord_toNat, BitVec.ofNat_toNat, BitVec.setWidth_eq]

/-- The response to a whole request carries the STATUS of the request's decoding, under the request's own command byte. -/
theorem AnswersWith.rsp0_eq {r : Request} {a : Rsp} (h : AnswersWith r a) (hw : r.wellFormed = true) :
    a.rsp0 = statusWord r.cmd (decodedStatus (decodeRequest r.cmd r.data)) := by
  have taken := takes_asEvents hw []
  have hp : (State.reset.withPort (asEvents r.bytes ++ [])).port = asEvents r.bytes ++ [] := rfl
  obtain ⟨t, hs, hword⟩ := step_request_statusWord taken hp
  obtain rfl := Host.Outcome.next.inj (hs.symm.trans (h _ _ _ taken hp))
  exact hword

/-- A whole request is answered with an error's response exactly when it decodes to that error. -/
theorem answersWith_error_iff {r : Request} (hw : r.wellFormed = true) (e : ErrorKind) :
    AnswersWith r (rspOf r.cmd (errorStatus e).code.toNat 0 0 0) ↔ decodeRequest r.cmd r.data = .error e := by
  rw [rspOf, ← statusWord_eq_ofNat]
  constructor
  · intro h
    have hst := congrArg statusOf (h.rsp0_eq hw)
    rw [statusOf_statusWord, statusOf_statusWord] at hst
    exact decodedStatus_eq_errorStatus.1 hst.symm
  · intro hd s p rest h hp
    rw [step_request h hp, hd]
    rfl

theorem answersWith_errOp_iff {r : Request} (hw : r.wellFormed = true) :
    AnswersWith r (rspOf r.cmd 2 0 0 0) ↔ IllegalCmd r.cmd :=
  (answersWith_error_iff hw .errOp).trans (decodeRequest_eq_errOp hw)

theorem answersWith_errLen_iff {r : Request} (hw : r.wellFormed = true) :
    AnswersWith r (rspOf r.cmd 3 0 0 0) ↔ decodeRequest r.cmd r.data = .error .errLen :=
  answersWith_error_iff hw .errLen

/-! ### The step on an instruction's own request, and on any port -/

theorem step_instr_request {s : State} {p : List PortEvent} {i : Instr} {rest : List PortEvent}
    (h : takes p i.request rest = true) (hp : s.port = p ++ rest) : step s = exec i (s.withPort rest) := by
  rw [step_request h hp, decodeRequest_request]

/-- Every operation but XYZ has one result word (R46). -/
theorem exec_shape_of_ne_xyz {i : Instr} (h : i.op ≠ .xyz) :
    ∃ a, ∀ s, exec i s = .next (respondOk i.op.cmd a 0 0 s) := by
  cases i
  case xyz => exact absurd rfl h
  all_goals exact ⟨_, fun _ => rfl⟩

/-- Whatever the port holds, the step answers a next state (R46). -/
theorem exists_step_eq_next (s : State) : ∃ t, step s = .next t := by
  obtain ⟨p, r, rest, h, hp⟩ | ⟨p, k, rest, hn, hp⟩ | ⟨p, rest, hn, hp⟩ | ⟨hd, hframe⟩ := port_cases s.port
  · exact ⟨_, answersWith_answer r s p rest h hp⟩
  · exact ⟨_, step_read hn hp⟩
  · exact ⟨_, step_reset hn hp⟩
  · exact ⟨_, step_wait hd hframe⟩

/-! ### Cutting a stream of requests (R40) -/

/-- A stream of whole requests is cut into those requests, in as many rounds as it has bytes or more. -/
theorem frameAllIn_flatMap_bytes {rs : List Request} (hw : ∀ r ∈ rs, r.wellFormed = true) {rounds : Nat}
    (hn : (rs.flatMap Request.bytes).length ≤ rounds) : frameAllIn rounds (rs.flatMap Request.bytes) = rs := by
  induction rs generalizing rounds with
  | nil => cases rounds <;> rfl
  | cons r rs ih =>
    obtain ⟨hr, hrs⟩ := List.forall_mem_cons.1 hw
    rw [List.flatMap_cons] at hn ⊢
    cases rounds with
    | zero => simp [Request.bytes] at hn
    | succ rounds =>
      have hrest : (rs.flatMap Request.bytes).length ≤ rounds := by
        rw [List.length_append, Request.bytes, List.length_cons] at hn
        omega
      rw [frameAllIn, frameRequest_append hr]
      exact congrArg (r :: ·) (ih hrs hrest)

end Sys2Proof.Machine
end

section
/-! The statements about request boundaries, command bytes and the step (spec/30_encoding.md R40, R42, R44 to R46). -/

namespace Sys2Proof.Machine

/-- Settles O7: the deliveries a step takes are the request's bytes, and a stream is cut request by request. -/
theorem requestBoundaries : Obligations.RequestBoundaries := by
  refine ⟨fun cmd bs => ?_, fun s p r rest h hp => ?_, fun rs hlen => ?_⟩
  · rw [frameRequest, cmdLen_eq]
  · obtain ⟨-, hw, hbytes, -⟩ := takes_eq_true.1 h
    refine ⟨?_, _, answersWith_answer r s p rest h hp, rfl⟩
    rw [hbytes, Request.bytes, List.length_cons, request_wellFormed_iff.1 hw, Nat.add_comm]
  · exact frameAllIn_flatMap_bytes (fun r hr => request_wellFormed_iff.2 (hlen r hr)) le_rfl

/-- Settles O8: a whole request names an instruction exactly when its command byte is one of the six, and it is then that
instruction's own request. -/
theorem opcodeMap : Obligations.OpcodeMap := by
  refine ⟨fun b0 b1 b2 b3 b4 b5 b6 => ⟨rfl, rfl, rfl, rfl, rfl, rfl⟩, fun cmd data hlen => ?_, fun cmd data i hd => ?_,
    fun cmd data hlen hop => ?_⟩
  · exact (exists_decodeRequest_eq_ok (r := ⟨cmd, data⟩) (request_wellFormed_iff.2 hlen)).trans exists_eq_opCmd
  · have hw := wellFormed_of_decodeRequest (r := ⟨cmd, data⟩) hd
    exact congrArg Request.bytes (eq_request_of_decodeRequest hw hd).symm
  · exact (answersWith_errOp_iff (request_wellFormed_iff.2 hlen)).2 (illegalCmd_iff.2 (.inr hop))

/-- Settles O9: ERR_OP is the answer to an illegal command byte and to no other; the bytes are counted one by one. -/
theorem illegalCommandBytes : Obligations.IllegalCommandBytes := by
  refine ⟨fun cmd data hlen => ?_, rfl, rfl, rfl, rfl⟩
  exact (answersWith_errOp_iff (r := ⟨cmd, data⟩) (request_wellFormed_iff.2 hlen)).trans illegalCmd_iff

/-- Settles O10: ERR_LEN is the answer to a command byte that is neither illegal nor one of the six; the bytes are counted
one by one. -/
theorem lengthMismatchBytes : Obligations.LengthMismatchBytes := by
  refine ⟨fun cmd data hlen => ?_, fun op => ?_, by decide, rfl⟩
  · have hw : Request.wellFormed ⟨cmd, data⟩ = true := request_wellFormed_iff.2 hlen
    rw [answersWith_errLen_iff hw, decodeRequest_eq_errLen_iff_neither hw, not_illegalCmd_iff, exists_eq_opCmd]
    simp only [not_or, and_assoc, ne_eq]
  · cases op <;> decide

/-- Settles O36: the checks of R46 fix which error a request decodes to, an instruction's own request runs it, and the
answer read off from the reset state is the answer from every state. -/
theorem requestStep : Obligations.RequestStep := by
  refine ⟨fun r hw hill => ?_, fun r op hw hrsv hop hlen => ?_, fun i s p rest h hp => step_instr_request h hp,
    fun i s => ?_, fun r _ => answersWith_answer r, exists_step_eq_next⟩
  · exact (answersWith_errOp_iff hw).2 (illegalCmd_iff.2 hill)
  · exact (answersWith_errLen_iff hw).2 ((decodeRequest_eq_errLen hw).2 (mismatchedCmd_of_length hrsv hop hlen))
  · obtain ⟨a, b, c, hexec⟩ := exec_shape i
    refine ⟨_, hexec s, statusWord_toNat i.op.cmd .ok, fun hop => ?_⟩
    obtain ⟨a', hexec'⟩ := exec_shape_of_ne_xyz hop
    rw [Host.Outcome.next.inj ((hexec s).symm.trans (hexec' s))]
    exact ⟨rfl, rfl⟩

end Sys2Proof.Machine
end

section
/-! SUPPORT. The 16-bit assembly and its two bytes back, the wrong length of an operation, and ID16's result word
(spec/40_assembly.md R48 to R50, spec/60_exceptions.md R76). -/

namespace Sys2Proof.Machine

/-! ### The assembly and its bytes -/

theorem u16_extract_hi (hi lo : Byte) : (u16 hi lo).extractLsb' 8 8 = hi := by
  have hhi := hi.isLt
  have hlo := lo.isLt
  apply BitVec.eq_of_toNat_eq
  rw [BitVec.extractLsb'_toNat, u16_toNat, Nat.shiftRight_eq_div_pow]
  omega

theorem u16_extract_lo (hi lo : Byte) : (u16 hi lo).extractLsb' 0 8 = lo := by
  have hlo := lo.isLt
  apply BitVec.eq_of_toNat_eq
  rw [BitVec.extractLsb'_toNat, u16_toNat, Nat.shiftRight_zero]
  omega

/-- A 16-bit value is the assembly of its own two bytes. -/
theorem u16_of_extract (n : Half) : u16 (n.extractLsb' 8 8) (n.extractLsb' 0 8) = n := by
  have hn := n.isLt
  apply BitVec.eq_of_toNat_eq
  rw [u16_toNat, BitVec.extractLsb'_toNat, BitVec.extractLsb'_toNat, Nat.shiftRight_eq_div_pow, Nat.shiftRight_zero]
  omega

/-- Cutting the value into its bytes is the inverse of the assembly (R49). -/
theorem u16_bijective : Function.Bijective fun p : Byte × Byte => u16 p.1 p.2 :=
  Function.bijective_iff_has_inverse.2 ⟨fun n => (n.extractLsb' 8 8, n.extractLsb' 0 8),
    fun p => Prod.ext (u16_extract_hi p.1 p.2) (u16_extract_lo p.1 p.2), u16_of_extract⟩

/-! ### The wrong length -/

/-- Every operation's number with another length than its own is a length mismatch, answered ERR_LEN (R76). -/
theorem wrongLengthReported (op : Op) : WrongLengthReported (op.cmd.toNat % 16) op.requiredLen := by
  intro cmd data hrsv hop hdata hlen
  have hw : Request.wellFormed ⟨cmd, data⟩ = true := request_wellFormed_iff.2 (by dsimp only; omega)
  have hmis : MismatchedCmd cmd := mismatchedCmd_of_length hrsv hop (hdata ▸ hlen)
  exact (answersWith_errLen_iff hw).2 ((decodeRequest_eq_errLen hw).2 hmis)

/-! ### ID16 -/

theorem exec_id16 (b0 b1 : Byte) (s : State) :
    exec (.id16 b0 b1) s = .next (respondOk Op.id16.cmd ((lsbFirst b0 b1).zeroExtend 32) 0 0 s) := rfl

/-- The identifier is widened without a sign: its number stays that of the two bytes, LSB first (R50). -/
theorem lsbFirst_zeroExtend_toNat (b0 b1 : Byte) :
    ((lsbFirst b0 b1).zeroExtend 32).toNat = 256 * b1.toNat + b0.toNat :=
  (BitVec.toNat_setWidth_of_le (by decide)).trans (lsbFirst_toNat b0 b1)

theorem res0Is_id16 {b0 b1 : Byte} {w : Word} (h : w.toNat = 256 * b1.toNat + b0.toNat) : Res0Is (.id16 b0 b1) w :=
  fun s => ⟨_, exec_id16 b0 b1 s, BitVec.eq_of_toNat_eq ((lsbFirst_zeroExtend_toNat b0 b1).trans h.symm)⟩

end Sys2Proof.Machine
end

section
/-! The statements about ID16 and the 16-bit assembly (spec/40_assembly.md R49, R50). -/

namespace Sys2Proof.Machine

/-- Settles O21: ID16 answers OK with the zero-extended identifier, whose number fixes every corner case. -/
theorem id16Operation : Obligations.Id16Operation := by
  refine ⟨fun b0 b1 s => ?_, fun _ _ => rfl, wrongLengthReported .id16, ?_⟩
  · exact ⟨_, exec_id16 b0 b1 s, rfl, lsbFirst_zeroExtend_toNat b0 b1, rfl, rfl, rfl, rfl⟩
  · simp only [List.forall_mem_cons]
    exact ⟨res0Is_id16 rfl, res0Is_id16 rfl, res0Is_id16 rfl, nofun⟩

/-- Settles O23: the value's two bytes are the assembled ones, and cutting into bytes inverts the assembly. -/
theorem byteAssemblyLaws : Obligations.ByteAssemblyLaws :=
  ⟨fun hi lo => ⟨u16_extract_hi hi lo, u16_extract_lo hi lo⟩, u16_bijective, u16_toNat⟩

end Sys2Proof.Machine
end

section
/-! SUPPORT. The magnetic decode as a number: the sum of its steps, its closed form, and the exact word it is output as
(spec/41_magnetic.md R52 to R54, R58). -/

namespace Sys2Proof.Machine

/-! ### Bits and their weighted sum -/

theorem bitAt_eq_shiftRight_and (n : Half) (i : Nat) : bitAt n i = (n.toNat >>> i) &&& 1 := by simp [bitAt]

theorem bitSum_eq_sum_range (n : Half) (k : Nat) : bitSum n k = ∑ i ∈ Finset.range k, bitAt n i * 2 ^ i := by
  induction k with
  | zero => rfl
  | succ k ih => rw [bitSum, ih, Finset.sum_range_succ]

/-- Two's complement: the sign bit weighs `-2^15`, the bits below it what they weigh unsigned. -/
theorem toInt_eq_sign_add_bitSum (n : Half) : n.toInt = -(bitAt n 15 : Int) * 2 ^ 15 + bitSum n 15 := by
  have hn := n.isLt
  rw [BitVec.toInt_eq_toNat_cond, bitAt_eq, bitSum_eq]
  split <;> omega

/-! ### The decode as a rational -/

/-- `partA + partB` of R52, the "fractional two's-complement value" of R53. -/
def magFraction (n : Half) : ℚ :=
  -(((n.toNat >>> 15) &&& 1 : Nat) : ℚ) * 2 ^ 15 / 2 ^ 16 +
    ∑ i ∈ Finset.range 15, (((n.toNat >>> i) &&& 1 : Nat) : ℚ) * 2 ^ i / 2 ^ 16

theorem magFraction_eq_bitSum (n : Half) :
    magFraction n = -(bitAt n 15 : ℚ) * 2 ^ 15 / 2 ^ 16 + (bitSum n 15 : ℚ) / 2 ^ 16 := by
  simp only [magFraction, bitSum_eq_sum_range, bitAt_eq_shiftRight_and, Nat.cast_sum, Nat.cast_mul, Nat.cast_pow,
    Nat.cast_ofNat, Finset.sum_div]

theorem magFraction_eq (n : Half) : magFraction n = (n.toInt : ℚ) / 2 ^ 16 := by
  rw [magFraction_eq_bitSum, toInt_eq_sign_add_bitSum]
  push_cast
  ring

theorem mag_toRat_eq_magFraction (R : Nat) (n : Half) : (mag R n).toRat = magFraction n * 2 * R := by
  simp only [mag, Frac.toRat_mul, Frac.toRat_ofInt]
  rw [Frac.toRat_add (by norm_num) (by norm_num), magFraction_eq_bitSum]
  simp only [Frac.toRat]
  push_cast
  rfl

/-- The closed form of R53. -/
theorem mag_toRat (R : Nat) (n : Half) : (mag R n).toRat = (n.toInt : ℚ) * R / 32768 := by
  rw [mag_toRat_eq_magFraction, magFraction_eq]
  ring

/-! ### Its range and order -/

theorem toInt_cast_bounds (n : Half) : (-32768 : ℚ) ≤ n.toInt ∧ (n.toInt : ℚ) ≤ 32767 := by
  have hlo : -32768 ≤ n.toInt := n.le_toInt
  have hhi : n.toInt < 32768 := n.toInt_lt
  exact ⟨by exact_mod_cast hlo, by exact_mod_cast Int.lt_add_one_iff.1 hhi⟩

theorem mag_toRat_bounds (R : Nat) (n : Half) :
    -(R : ℚ) ≤ (mag R n).toRat ∧ (mag R n).toRat ≤ (R : ℚ) - R / 32768 := by
  obtain ⟨hlo, hhi⟩ := toInt_cast_bounds n
  have hR : (0 : ℚ) ≤ R := R.cast_nonneg
  rw [mag_toRat]
  constructor
  · calc -(R : ℚ) = -32768 * R / 32768 := by ring
      _ ≤ _ := by gcongr
  · calc (n.toInt : ℚ) * R / 32768 ≤ 32767 * R / 32768 := by gcongr
      _ = _ := by ring

theorem mag_zero_toRat (R : Nat) : (mag R 0x0000).toRat = 0 := by simp [mag_toRat]

theorem mag_lowest_toRat (R : Nat) : (mag R 0x8000).toRat = -R := by
  rw [mag_toRat, show (0x8000 : Half).toInt = -32768 from rfl]
  push_cast
  ring

theorem mag_highest_toRat (R : Nat) : (mag R 0x7FFF).toRat = R - R / 32768 := by
  rw [mag_toRat, show (0x7FFF : Half).toInt = 32767 from rfl]
  push_cast
  ring

theorem mag_toRat_strictMono {R : Nat} (hR : 1 ≤ R) {a b : Half} (h : a.toInt < b.toInt) :
    (mag R a).toRat < (mag R b).toRat := by
  have hR' : (0 : ℚ) < R := by exact_mod_cast hR
  have h' : (a.toInt : ℚ) < b.toInt := by exact_mod_cast h
  rw [mag_toRat, mag_toRat]
  gcongr

/-- Negating any pattern but 0x8000 negates the field (R57). -/
theorem mag_neg_toRat (R : Nat) {x : Half} (hx : x ≠ 0x8000) : (mag R (-x)).toRat = -(mag R x).toRat := by
  rw [mag_toRat, mag_toRat, BitVec.toInt_neg_of_ne_intMin hx]
  push_cast
  ring

/-! ### The output word -/

/-- The decode is `sext_16(n) * R` times `2^-15`, and that integer has at most 24 bits (R54). -/
theorem isF32Of_f32Exact_mag {R : Nat} (hR : R ≤ 512) (n : Half) :
    IsF32Of (f32Exact (mag R n)) (mag R n).toRat := by
  have hlo : -2 ^ 15 ≤ n.toInt := n.le_toInt
  have hhi : n.toInt < 2 ^ 15 := n.toInt_lt
  have hn : n.toInt.natAbs ≤ 2 ^ 15 := by omega
  refine isF32Of_f32Exact _ (mag_den_ne_zero R n) (n.toInt * R) (-15) ?_ ?_ (by norm_num) (by norm_num)
  · rw [mag_toRat, show (2 : ℚ) ^ (-15 : Int) = 1 / 32768 by norm_num]
    push_cast
    ring
  · calc (n.toInt * R).natAbs = n.toInt.natAbs * R := by rw [Int.natAbs_mul, Int.natAbs_natCast]
      _ ≤ 2 ^ 15 * 512 := Nat.mul_le_mul hn hR
      _ = 2 ^ 24 := by norm_num

theorem f32Value_f32Exact_mag {R : Nat} (hR : R ≤ 512) (n : Half) :
    (f32Value (f32Exact (mag R n))).toRat = (mag R n).toRat := by
  obtain ⟨-, hval, -⟩ := isF32Of_f32Exact_mag hR n
  exact hval

/-- The pattern 0x0000 has the numerator zero, so its word is +0.0 and not -0.0 (R54). -/
theorem f32Exact_mag_zero (R : Nat) : f32Exact (mag R 0x0000) = 0x00000000 := f32Rne_zero (Int.zero_mul R)

end Sys2Proof.Machine
end

section
/-! SUPPORT. What FIELD and XYZ leave in the result words (spec/41_magnetic.md R55, R56). -/

namespace Sys2Proof.Machine

theorem exec_field (b0 b1 : Byte) (s : State) :
    exec (.field b0 b1) s = .next (respondOk Op.field.cmd (magWord (msbFirst b0 b1)) 0 0 s) := rfl

theorem exec_xyz (b0 b1 b2 b3 b4 b5 b6 : Byte) (s : State) :
    exec (.xyz b0 b1 b2 b3 b4 b5 b6) s = .next (respondOk Op.xyz.cmd (magWord (msbFirst b0 b1))
      (magWord (msbFirst b2 b3)) (magWord (msbFirst b4 b5)) s) := rfl

theorem msbFirst_eq_ofNat (b0 b1 : Byte) : msbFirst b0 b1 = BitVec.ofNat 16 (256 * b0.toNat + b1.toNat) := by
  rw [← msbFirst_toNat, BitVec.ofNat_toNat, BitVec.setWidth_eq]

/-- An axis's word is the exact field of its two bytes, MSB first. -/
theorem isF32Of_magWord (b0 b1 : Byte) : IsF32Of (magWord (msbFirst b0 b1))
    (((BitVec.ofNat 16 (256 * b0.toNat + b1.toNat)).toInt : ℚ) * 40 / 32768) := by
  have h := isF32Of_f32Exact_mag (R := 40) (by norm_num) (msbFirst b0 b1)
  rw [mag_toRat] at h
  rw [← msbFirst_eq_ofNat]
  exact h

theorem res0Is_field {b0 b1 : Byte} {w : Word} (h : magWord (msbFirst b0 b1) = w) : Res0Is (.field b0 b1) w :=
  fun s => ⟨_, exec_field b0 b1 s, h⟩

end Sys2Proof.Machine
end

section
/-! The statements about the magnetic decoder, FIELD and XYZ (spec/41_magnetic.md R52 to R58). -/

namespace Sys2Proof.Machine

/-- Settles O24: the decode is the fraction of R52 times `2 * R`, over the true bits of the pattern. -/
theorem magneticDecoderSteps : Obligations.MagneticDecoderSteps :=
  ⟨mag_toRat_eq_magFraction, bitAt_eq_shiftRight_and⟩

/-- Settles O25: the fraction is the signed code over `2^16`, so the range is the signed code's. -/
theorem magneticClosedForm : Obligations.MagneticClosedForm := by
  refine ⟨fun n => ?_, fun R n => ?_, fun n => ?_, ?_⟩
  · obtain ⟨hlo, hhi⟩ := toInt_cast_bounds n
    exact ⟨by linarith, by linarith, magFraction_eq n⟩
  · exact ⟨(mag_toRat R n).trans (by ring), mag_toRat R n, mag_toRat_bounds R n⟩
  · obtain ⟨hlo, hhi⟩ := mag_toRat_bounds 40 n
    refine ⟨?_, hlo, hhi.trans (by norm_num)⟩
    rw [mag_toRat]
    push_cast
    ring
  · rw [mag_toRat, show (0x0001 : Half).toInt = 1 from rfl]
    norm_num

/-- Settles O26: the significand of the decode fits 24 bits at every range up to 512, and FIELD outputs the decode at 40. -/
theorem magneticOutputIsExact : Obligations.MagneticOutputIsExact := by
  refine ⟨fun R n _ hR => isF32Of_f32Exact_mag hR n, f32Exact_mag_zero, fun b0 b1 s => ?_⟩
  rw [← msbFirst_eq_ofNat]
  exact ⟨_, exec_field b0 b1 s, rfl⟩

/-- Settles O27: the closed form is linear in the signed code, and the outputs are exact. -/
theorem magneticProperties : Obligations.MagneticProperties := by
  refine ⟨fun R => ⟨mag_zero_toRat R, mag_lowest_toRat R, mag_highest_toRat R⟩, mag_lowest_toRat 40,
    (mag_highest_toRat 40).trans (by norm_num), fun R x hx => ?_, fun R a b hR h => mag_toRat_strictMono hR h,
    mag_toRat_strictMono (by norm_num) (by decide), fun a b h => ?_⟩
  · rw [← BitVec.toNat_neg, BitVec.ofNat_toNat, BitVec.setWidth_eq]
    exact mag_neg_toRat R hx
  · rw [f32Value_f32Exact_mag (by norm_num), f32Value_f32Exact_mag (by norm_num)]
    exact mag_toRat_strictMono (by norm_num) h

/-- Settles O17: FIELD answers OK with the exact word of its axis; the corner cases are evaluated. -/
theorem fieldOperation : Obligations.FieldOperation := by
  refine ⟨fun b0 b1 s => ?_, fun _ _ => rfl, wrongLengthReported .field, ?_⟩
  · exact ⟨_, exec_field b0 b1 s, rfl, isF32Of_magWord b0 b1, rfl, rfl, rfl, rfl⟩
  · simp only [List.forall_mem_cons]
    exact ⟨res0Is_field (by decide), res0Is_field (by decide), res0Is_field (by decide), res0Is_field (by decide),
      res0Is_field (by decide), res0Is_field (by decide), nofun⟩

/-- Settles O18: XYZ answers OK with the exact word of each axis, and no word is made from the status byte. -/
theorem xyzOperation : Obligations.XyzOperation := by
  refine ⟨fun b0 b1 b2 b3 b4 b5 b6 s => ?_, fun _ _ _ _ _ _ _ _ _ => rfl, fun _ _ _ _ _ _ _ => rfl,
    wrongLengthReported .xyz, fun s => ?_, fun b0 b1 b6 s => ?_⟩
  · exact ⟨_, exec_xyz b0 b1 b2 b3 b4 b5 b6 s, rfl, isF32Of_magWord b0 b1, isF32Of_magWord b2 b3,
      isF32Of_magWord b4 b5, rfl, rfl⟩
  · have hx : magWord (msbFirst 0x10 0x00) = 0x40A00000 := by decide
    have hy : magWord (msbFirst 0xF0 0x00) = 0xC0A00000 := by decide
    have hz : magWord (msbFirst 0x80 0x00) = 0xC2200000 := by decide
    exact ⟨_, exec_xyz _ _ _ _ _ _ _ s, hx, hy, hz⟩
  · exact ⟨_, exec_xyz b0 b1 b0 b1 b0 b1 b6 s, rfl, rfl⟩

end Sys2Proof.Machine
end

section
/-! SUPPORT. The angle decode as a number: the sum of its steps, its closed form and order, and the exact word ANGLE
outputs (spec/42_angle.md R59 to R63). -/

namespace Sys2Proof.Machine

/-! ### The decode as a fraction and as a rational -/

/-- The two parts of R59 join into sixteenths of the low thirteen bits, so bits 15 to 13 take no part (R60). -/
theorem angle_eq (n : Half) : angle n = ⟨(n.toNat % 8192 : Nat), 16⟩ := by
  have hparts : (n.toNat >>> 4) % 2 ^ 9 * 16 + n.toNat % 2 ^ 4 = n.toNat % 8192 := by
    rw [Nat.shiftRight_eq_div_pow]
    omega
  rw [← hparts, ← bitSum_eq, ← BitVec.extractLsb'_toNat]
  simp [angle, Frac.add, Frac.ofInt]

/-- The closed form of R59. -/
theorem angle_toRat (n : Half) : (angle n).toRat = ((n.toNat % 8192 : Nat) : ℚ) / 16 := by
  rw [angle_eq]
  rfl

/-- R59 step by step: the integer part, and each fraction bit weighed `2^i / 16`. -/
theorem angle_toRat_eq_sum (n : Half) : (angle n).toRat = (((n.toNat >>> 4) % 512 : Nat) : ℚ) +
    ∑ i ∈ Finset.range 4, (((n.toNat >>> i) &&& 1 : Nat) : ℚ) * 2 ^ i / 16 := by
  have hfraction : (bitSum n 4 : ℚ) / 16 =
      ∑ i ∈ Finset.range 4, (((n.toNat >>> i) &&& 1 : Nat) : ℚ) * 2 ^ i / 16 := by
    simp only [bitSum_eq_sum_range, bitAt_eq_shiftRight_and, Nat.cast_sum, Nat.cast_mul, Nat.cast_pow, Nat.cast_ofNat,
      Finset.sum_div]
  rw [angle, Frac.toRat_add (by norm_num) (by norm_num), Frac.toRat_ofInt, BitVec.extractLsb'_toNat, ← hfraction]
  rfl

theorem angle_and_mask (n : Half) : angle (n &&& 0x1FFF) = angle n := by
  have hmask : (n &&& 0x1FFF).toNat = n.toNat % 8192 := Nat.and_two_pow_sub_one_eq_mod n.toNat 13
  rw [angle_eq, angle_eq, hmask, Nat.mod_mod]

/-! ### Its range, step and order -/

theorem angle_toRat_bounds (n : Half) : 0 ≤ (angle n).toRat ∧ (angle n).toRat ≤ 511.9375 := by
  have hcode : n.toNat % 8192 ≤ 8191 := by omega
  have hcode' : ((n.toNat % 8192 : Nat) : ℚ) ≤ 8191 := by exact_mod_cast hcode
  rw [angle_toRat]
  exact ⟨by positivity, by linarith⟩

/-- While the fraction field is not full, one more in the code is 1/16 degree more (R63). -/
theorem angle_succ_toRat {n : Half} (h : n.toNat % 16 < 15) : (angle (n + 1)).toRat = (angle n).toRat + 1 / 16 := by
  have hcode : (n + 1).toNat % 8192 = n.toNat % 8192 + 1 := by
    rw [BitVec.toNat_add, show (1 : Half).toNat = 1 from rfl]
    omega
  rw [angle_toRat, angle_toRat, hcode]
  push_cast
  ring

theorem angle_toRat_strictMono {a b : Half} (h : a.toNat % 8192 < b.toNat % 8192) :
    (angle a).toRat < (angle b).toRat := by
  rw [angle_toRat, angle_toRat]
  gcongr

/-! ### The output word -/

/-- The angle is a multiple of `2^-4` (R63). -/
theorem angle_toRat_eq_mul_zpow (n : Half) : (angle n).toRat = (n.toNat % 8192 : Nat) * 2 ^ (-4 : Int) := by
  rw [angle_toRat, div_eq_mul_inv]
  norm_num

/-- The multiple has at most 13 bits, so the output is exact (R63). -/
theorem isF32Of_f32Exact_angle (n : Half) : IsF32Of (f32Exact (angle n)) (angle n).toRat := by
  have hcode : n.toNat % 8192 ≤ 2 ^ 24 := by omega
  exact isF32Of_f32Exact _ (angle_den_ne_zero n) (n.toNat % 8192 : Nat) (-4) (angle_toRat_eq_mul_zpow n) hcode
    (by norm_num) (by norm_num)

theorem exec_angle (b0 b1 : Byte) (s : State) :
    exec (.angle b0 b1) s = .next (respondOk Op.angle.cmd (f32Exact (angle (msbFirst b0 b1))) 0 0 s) := rfl

/-- ANGLE's word is the exact angle of its two bytes, MSB first. -/
theorem isF32Of_angleWord (b0 b1 : Byte) : IsF32Of (f32Exact (angle (msbFirst b0 b1)))
    ((((256 * b0.toNat + b1.toNat) % 8192 : Nat) : ℚ) / 16) := by
  have h := isF32Of_f32Exact_angle (msbFirst b0 b1)
  rwa [angle_toRat, msbFirst_toNat] at h

theorem res0Is_angle {b0 b1 : Byte} {w : Word} (h : f32Exact (angle (msbFirst b0 b1)) = w) : Res0Is (.angle b0 b1) w :=
  fun s => ⟨_, exec_angle b0 b1 s, h⟩

end Sys2Proof.Machine
end

section
/-! The statements about the angle decoder and ANGLE (spec/42_angle.md R59 to R63). -/

namespace Sys2Proof.Machine

/-- Settles O28: the decode's two parts are the shifted field and the weighted bits, and together the low thirteen bits. -/
theorem angleDecoderSteps : Obligations.AngleDecoderSteps :=
  ⟨angle_toRat_eq_sum, angle_toRat, fun n => (angle_and_mask n).symm⟩

/-- Settles O29: the output is the code's sixteenths whatever the code, and a whole part of 360 makes that at least 360. -/
theorem angleDoesNotWrap : Obligations.AngleDoesNotWrap := by
  refine ⟨angle_toRat_bounds, fun b0 b1 s h => ?_⟩
  obtain ⟨hfinite, hvalue, hsign⟩ := isF32Of_angleWord b0 b1
  have hangle : (360 : ℚ) ≤ (((256 * b0.toNat + b1.toNat) % 8192 : Nat) : ℚ) / 16 := by
    have hcode : 360 * 16 ≤ (256 * b0.toNat + b1.toNat) % 8192 := (Nat.le_div_iff_mul_le (by norm_num)).1 h
    rw [le_div_iff₀ (by norm_num)]
    exact_mod_cast hcode
  exact ⟨_, exec_angle b0 b1 s, statusOf_statusWord _ _, ⟨hfinite, hvalue, hsign⟩, hangle.trans_eq hvalue.symm⟩

/-- Settles O30: the closed form is linear in the low thirteen bits, an integer of thirteen bits times `2^-4`. -/
theorem angleProperties : Obligations.AngleProperties := by
  refine ⟨fun n => ⟨⟨n.toNat % 8192, Nat.mod_lt _ (by norm_num), angle_toRat_eq_mul_zpow n⟩, isF32Of_f32Exact_angle n⟩,
    ?_, fun n h => angle_succ_toRat h, fun a b h => angle_toRat_strictMono h, ?_⟩
  · simp [angle_toRat]
  · rw [angle_toRat, show (0x1680 : Half).toNat % 8192 = 360 * 16 from rfl]
    norm_num

/-- Settles O16: ANGLE answers OK with the exact word of its code; the corner cases are evaluated. -/
theorem angleOperation : Obligations.AngleOperation := by
  refine ⟨fun b0 b1 s => ?_, fun _ _ => rfl, wrongLengthReported .angle, ?_⟩
  · exact ⟨_, exec_angle b0 b1 s, rfl, isF32Of_angleWord b0 b1, rfl, rfl, rfl, rfl⟩
  · simp only [List.forall_mem_cons]
    exact ⟨res0Is_angle (by decide), res0Is_angle (by decide), res0Is_angle (by decide), res0Is_angle (by decide),
      res0Is_angle (by decide), res0Is_angle (by decide), res0Is_angle (by decide), res0Is_angle (by decide),
      res0Is_angle (by decide), res0Is_angle (by decide), nofun⟩

end Sys2Proof.Machine
end

section
/-! SUPPORT. Nearest binary32 values in general: a fraction over an odd denominator is never halfway between two of
them, and nearest values keep the order of what they are nearest to (spec/43_temperature.md R66, R68). -/

namespace Sys2Proof

/-- A power of two does not halve an odd denominator away: scaled up, such a fraction is no integer and a half. -/
theorem abs_div_odd_mul_two_pow_ne_half {n : Int} {d : Nat} (hd : Odd d) (k : Nat) (i : Int) :
    |(n : ℚ) / d| * 2 ^ k ≠ i + 1 / 2 := by
  intro h
  have hd' : (d : ℚ) ≠ 0 := by exact_mod_cast hd.pos.ne'
  rw [abs_div, Nat.abs_cast, div_mul_eq_mul_div, div_eq_iff hd'] at h
  have hcleared : 2 * (|n| * 2 ^ k) = (2 * i + 1) * d := by
    have : 2 * (|(n : ℚ)| * 2 ^ k) = (2 * i + 1) * d := by
      rw [h]
      ring
    exact_mod_cast this
  have hodd : Odd ((2 * i + 1) * (d : Int)) := (odd_two_mul_add_one i).mul (by exact_mod_cast hd)
  exact Int.not_odd_iff_even.2 (even_two_mul _) (hcleared ▸ hodd)

/-- Over an odd denominator the nearest binary32 value is the only nearest one, up to `2 ^ 23`: there is no tie. -/
theorem isUniqueNearestF32_f32Rne_of_odd {q : Frac} (hd : q.den ≠ 0) {n : Int} {d : Nat} (hodd : Odd d)
    (hq : q.toRat = n / d) {a b : Int} (ha : (2 : ℚ) ^ a ≤ |q.toRat|) (hb : |q.toRat| < 2 ^ b) (ha' : -126 ≤ a)
    (hb' : b ≤ 24) : IsUniqueNearestF32 (f32Rne q) q.toRat := by
  obtain ⟨hfinite, hnearest⟩ := f32Rne_nearest q hd ha hb ha' (by omega)
  obtain ⟨-, -, hexp⟩ := Frac.exponent_bounds hd ha hb
  refine ⟨hfinite, fun v _ hne => (hnearest v).2 (fun i => ?_) hne⟩
  obtain ⟨k, hk⟩ := Int.eq_ofNat_of_zero_le (show 0 ≤ 23 - floorLog2 q.num.natAbs q.den by omega)
  rw [hk, zpow_natCast, hq]
  exact abs_div_odd_mul_two_pow_ne_half hodd k i

/-- In the normal range the significand keeps its leading one, so no output is zero. -/
theorem f32Value_f32Rne_ne_zero {q : Frac} (hd : q.den ≠ 0) {a b : Int} (ha : (2 : ℚ) ^ a ≤ |q.toRat|)
    (hb : |q.toRat| < 2 ^ b) (ha' : -126 ≤ a) (hb' : b ≤ 127) : (f32Value (f32Rne q)).toRat ≠ 0 := by
  obtain ⟨hn, hlo, hhi⟩ := Frac.exponent_bounds hd ha hb
  obtain ⟨k, hk, -, -, -, hvalue⟩ := f32Rne_normal q hn hd (by omega) (by omega)
  have hk' : (k : ℚ) ≠ 0 := by exact_mod_cast (by omega : k ≠ 0)
  have hsign : (if q.num < 0 then -1 else 1 : ℚ) ≠ 0 := by split <;> norm_num
  rw [hvalue]
  exact mul_ne_zero (mul_ne_zero hsign hk') (zpow_ne_zero _ two_ne_zero)

/-- Were the values in the wrong order, exchanging them would bring neither number nearer to its value: the squared
distances add up to the contradiction. -/
theorem IsUniqueNearestF32.value_le {v w : Word} {p q : ℚ} (hv : IsUniqueNearestF32 v p) (hw : IsUniqueNearestF32 w q)
    (hpq : p ≤ q) : (f32Value v).toRat ≤ (f32Value w).toRat := by
  obtain ⟨hvfinite, hvnear⟩ := hv
  obtain ⟨hwfinite, hwnear⟩ := hw
  by_contra! hlt
  have hp := sq_lt_sq.2 (hvnear w hwfinite hlt.ne)
  have hq := sq_lt_sq.2 (hwnear v hvfinite hlt.ne')
  have hexchange := mul_nonneg (sub_nonneg.2 hlt.le) (sub_nonneg.2 hpq)
  linarith

end Sys2Proof
end

section
/-! SUPPORT. The temperature as a number: its closed forms, order and range, and the word TEMP outputs
(spec/43_temperature.md R64 to R68). -/

namespace Sys2Proof.Machine

/-! ### The decode as a rational -/

/-- R65 in its first form, with the divisor 601/10. -/
theorem temp_toRat (c : Nat) : (temp c).toRat = 25 + ((c : ℚ) - 17508) / (601 / 10) := by
  have hres : Config.tAdcRes.num ≠ 0 := by decide
  rw [temp, Frac.toRat_add one_ne_zero (Frac.div_den_ne_zero one_ne_zero hres), Frac.toRat_div hres, Frac.toRat_ofInt,
    Frac.toRat_ofInt]
  simp [Config.tSensT0, Config.tAdcT0, Config.tAdcRes, Frac.toRat]

/-- R65 in its second form. -/
theorem temp_toRat_eq (c : Nat) : (temp c).toRat = 25 + 10 * ((c : ℚ) - 17508) / 601 := by
  rw [temp_toRat]
  ring

/-- The temperature over the one denominator 601, an odd number. -/
theorem temp_toRat_eq_div (c : Nat) : (temp c).toRat = ((10 * c - 160055 : Int) : ℚ) / (601 : Nat) := by
  rw [temp_toRat]
  push_cast
  ring

/-! ### Its order and range -/

theorem temp_sub_toRat (c d : Nat) : (temp d).toRat - (temp c).toRat = ((d : ℚ) - c) * (10 / 601) := by
  rw [temp_toRat, temp_toRat]
  ring

theorem temp_toRat_strictMono : StrictMono fun c => (temp c).toRat := by
  intro c d h
  have h' : (c : ℚ) < d := by exact_mod_cast h
  simp only [temp_toRat]
  gcongr

theorem temp_toRat_bounds {c : Nat} (hc : c ≤ 65535) :
    -160055 / 601 ≤ (temp c).toRat ∧ (temp c).toRat ≤ 495295 / 601 := by
  have hlo := temp_toRat_strictMono.monotone c.zero_le
  have hhi := temp_toRat_strictMono.monotone hc
  simp only [temp_toRat] at hlo hhi ⊢
  norm_num at hlo hhi ⊢
  exact ⟨hlo, hhi⟩

theorem temp_17508_toRat : (temp 17508).toRat = 25 := by
  rw [temp_toRat]
  norm_num

theorem temp_18109_toRat : (temp 18109).toRat = 35 := by
  rw [temp_toRat]
  norm_num

/-! ### The output word -/

/-- The numerator over 601 is an odd multiple of five: `temp = 0` would need the code 16005.5 (R67), and the codes on
either side of it are `5/601` away. -/
theorem two_zpow_le_abs_temp_toRat (c : Nat) : (2 : ℚ) ^ (-7 : Int) ≤ |(temp c).toRat| := by
  have hnum : 5 ≤ |10 * (c : Int) - 160055| := le_abs.2 (by omega)
  have hnum' : (5 : ℚ) ≤ |((10 * c - 160055 : Int) : ℚ)| := by exact_mod_cast hnum
  rw [temp_toRat_eq_div, abs_div, Nat.abs_cast]
  calc (2 : ℚ) ^ (-7 : Int) ≤ 5 / (601 : Nat) := by norm_num
    _ ≤ _ := by gcongr

theorem abs_temp_toRat_lt_two_zpow {c : Nat} (hc : c ≤ 65535) : |(temp c).toRat| < (2 : ℚ) ^ (10 : Int) := by
  obtain ⟨hlo, hhi⟩ := temp_toRat_bounds hc
  exact abs_lt.2 ⟨lt_of_lt_of_le (by norm_num) hlo, hhi.trans_lt (by norm_num)⟩

/-- The output is the one nearest binary32 value: 601 is odd, so there is no tie (R66). -/
theorem isUniqueNearestF32_f32Rne_temp {c : Nat} (hc : c ≤ 65535) :
    IsUniqueNearestF32 (f32Rne (temp c)) (temp c).toRat :=
  isUniqueNearestF32_f32Rne_of_odd (temp_den_ne_zero c) (by decide) (temp_toRat_eq_div c) (two_zpow_le_abs_temp_toRat c)
    (abs_temp_toRat_lt_two_zpow hc) (by norm_num) (by norm_num)

theorem f32Value_f32Rne_temp_ne_zero {c : Nat} (hc : c ≤ 65535) : (f32Value (f32Rne (temp c))).toRat ≠ 0 :=
  f32Value_f32Rne_ne_zero (temp_den_ne_zero c) (two_zpow_le_abs_temp_toRat c) (abs_temp_toRat_lt_two_zpow hc)
    (by norm_num) (by norm_num)

/-- TADCT is the number of the two bytes, LSB first, with no sign (R64). -/
theorem exec_temp (b0 b1 : Byte) (s : State) : exec (.temp b0 b1) s =
    .next (respondOk Op.temp.cmd (f32Rne (temp (256 * b1.toNat + b0.toNat))) 0 0 s) := by
  rw [← lsbFirst_toNat]
  rfl

theorem tadct_le (b0 b1 : Byte) : 256 * b1.toNat + b0.toNat ≤ 65535 := by
  have h0 := b0.isLt
  have h1 := b1.isLt
  omega

theorem res0Is_temp {b0 b1 : Byte} {w : Word} (h : f32Rne (temp (256 * b1.toNat + b0.toNat)) = w) :
    Res0Is (.temp b0 b1) w :=
  fun s => ⟨_, exec_temp b0 b1 s, h⟩

end Sys2Proof.Machine
end

section
/-! The statements about the temperature decoder and TEMP (spec/43_temperature.md R64, R65, R67, R68). -/

namespace Sys2Proof.Machine

/-- Settles O31: TEMP rounds the temperature at the unsigned number of its two bytes, LSB first. -/
theorem temperatureFormula : Obligations.TemperatureFormula :=
  ⟨fun b0 b1 s => ⟨_, exec_temp b0 b1 s, rfl⟩, fun c => ⟨temp_toRat c, temp_toRat_eq c⟩, temp_17508_toRat,
    temp_18109_toRat⟩

/-- Settles O33: the closed form is affine in the code, and unique nearest values keep the order. -/
theorem temperatureProperties : Obligations.TemperatureProperties := by
  refine ⟨temp_sub_toRat, fun c d h => temp_toRat_strictMono h, temp_17508_toRat, temp_18109_toRat,
    fun c d hcd hd => ?_, fun c hc => temp_toRat_bounds hc⟩
  exact (isUniqueNearestF32_f32Rne_temp (hcd.trans hd)).value_le (isUniqueNearestF32_f32Rne_temp hd)
    (temp_toRat_strictMono.monotone hcd)

/-- Settles O19: TEMP answers OK with the unique nearest word of its code, which is never zero; the corner cases are
evaluated. -/
theorem tempOperation : Obligations.TempOperation := by
  refine ⟨fun b0 b1 s => ?_, fun _ _ => rfl, wrongLengthReported .temp, ?_⟩
  · have hcode := tadct_le b0 b1
    have hnearest := isUniqueNearestF32_f32Rne_temp hcode
    rw [temp_toRat_eq] at hnearest
    exact ⟨_, exec_temp b0 b1 s, rfl, hnearest, f32Value_f32Rne_temp_ne_zero hcode, rfl, rfl, rfl, rfl⟩
  · simp only [List.forall_mem_cons]
    exact ⟨res0Is_temp (by decide), res0Is_temp (by decide), res0Is_temp (by decide), res0Is_temp (by decide),
      res0Is_temp (by decide), res0Is_temp (by decide), res0Is_temp (by decide), res0Is_temp (by decide), nofun⟩

end Sys2Proof.Machine
end

section
/-! SUPPORT. The magnitude decoder in closed form, its range, and MAG's result word (spec/44_magnitude.md R71 to R73; log
entry 15). -/

namespace Sys2Proof.Machine

/-! ### The digit loop -/

/-- From any accumulator and weight, the loop adds the value in base two of the decimal digits that are left (R71). -/
theorem digitLoop_eq {rounds n : Nat} (acc i : Nat) (h : n < 10 ^ rounds) :
    digitLoop rounds acc i n = acc + 2 ^ i * Nat.ofDigits 2 (Nat.digits 10 n) := by
  induction rounds generalizing acc i n with
  | zero =>
    obtain rfl : n = 0 := by omega
    simp [digitLoop]
  | succ rounds ih =>
    by_cases hn : n = 0
    · simp [digitLoop, hn]
    · have hrest : n / 10 < 10 ^ rounds := Nat.div_lt_of_lt_mul (by rwa [← pow_succ'])
      rw [digitLoop, if_neg hn, ih _ _ hrest, Nat.digits_def' (by decide) (Nat.pos_of_ne_zero hn), Nat.ofDigits_cons]
      ring

/-- With a round for every decimal digit, the loop reads the digits in base two to the end (log entry 15). -/
theorem digitLoop_eq_ofDigits {rounds n : Nat} (h : n < 10 ^ rounds) :
    digitLoop rounds 0 0 n = Nat.ofDigits 2 (Nat.digits 10 n) := by
  simpa using digitLoop_eq 0 0 h

/-! ### The two functions -/

theorem magdec_raw (m : Byte) : magdec .raw m = m.toNat := rfl

/-- A byte has at most three decimal digits, so three rounds read them all. -/
theorem magdec_digitwise (m : Byte) : magdec .digitwise m = Nat.ofDigits 2 (Nat.digits 10 m.toNat) :=
  digitLoop_eq_ofDigits (by omega)

/-- The digits of a byte one by one: units, tens and hundreds, weighted one, two and four. -/
theorem magdec_digitwise_eq (m : Byte) :
    magdec .digitwise m = m.toNat % 10 + 2 * (m.toNat / 10 % 10) + 4 * (m.toNat / 100) := by
  simp only [magdec, digitLoop]
  split_ifs <;> omega

/-- A byte's decimal digits, hundreds, tens and units, and its DIGITWISE value in them. -/
theorem exists_decimalDigits (m : Byte) : ∃ h t u : Nat, h ≤ 2 ∧ t ≤ 9 ∧ u ≤ 9 ∧ m.toNat = 100 * h + 10 * t + u ∧
    magdec .digitwise m = u + 2 * t + 4 * h :=
  ⟨m.toNat / 100, m.toNat / 10 % 10, m.toNat % 10, by omega, by omega, by omega, by omega, magdec_digitwise_eq m⟩

theorem magdec_le (mode : MagMode) (m : Byte) : magdec mode m ≤ 255 := by
  have hm := m.isLt
  cases mode with
  | raw =>
    rw [magdec_raw]
    omega
  | digitwise =>
    rw [magdec_digitwise_eq]
    omega

/-- DIGITWISE of the byte written with the decimal digits `h`, `t`, `u`. -/
theorem magdec_digitwise_ofDigits {h t u : Nat} (hh : h ≤ 1) (ht : t ≤ 9) (hu : u ≤ 9) :
    magdec .digitwise (BitVec.ofNat 8 (100 * h + 10 * t + u)) = u + 2 * t + 4 * h := by
  have hbyte : 100 * h + 10 * t + u < 2 ^ 8 := by omega
  rw [magdec_digitwise_eq, BitVec.toNat_ofNat, Nat.mod_eq_of_lt hbyte]
  omega

/-- Every value up to 31 is taken: one digit reaches 9, two digits reach 27, and a hundred adds the last 4 (R73). -/
theorem exists_magdec_digitwise_eq {v : Nat} (hv : v ≤ 31) : ∃ m : Byte, magdec .digitwise m = v := by
  obtain ⟨h, t, u, hh, ht, hu, rfl⟩ : ∃ h t u : Nat, h ≤ 1 ∧ t ≤ 9 ∧ u ≤ 9 ∧ u + 2 * t + 4 * h = v := by
    by_cases h9 : v ≤ 9
    · exact ⟨0, 0, v, by omega⟩
    by_cases h27 : v ≤ 27
    · exact ⟨0, (v - 8) / 2, 8 + v % 2, by omega⟩
    · exact ⟨1, 9, v - 22, by omega⟩
  exact ⟨_, magdec_digitwise_ofDigits hh ht hu⟩

/-! ### MAG -/

theorem execMagIn_eq (mode : MagMode) (b0 : Byte) (s : State) :
    execMagIn mode b0 s = .next (respondOk Op.mag.cmd (BitVec.ofInt 32 (magdec mode b0)) 0 0 s) := rfl

theorem exec_mag (b0 : Byte) (s : State) : exec (.mag b0) s = execMagIn Config.magMode b0 s := rfl

/-- The result fits eight bits, so its 32-bit word has it as its unsigned number. -/
theorem ofInt_magdec_toNat (mode : MagMode) (m : Byte) : (BitVec.ofInt 32 (magdec mode m)).toNat = magdec mode m := by
  have hle := magdec_le mode m
  rw [BitVec.ofInt_natCast, BitVec.toNat_ofNat]
  omega

/-- The word is below `2^31`, so it reads the same signed as unsigned (R73). -/
theorem ofInt_magdec_toInt (mode : MagMode) (m : Byte) : (BitVec.ofInt 32 (magdec mode m)).toInt = magdec mode m := by
  have hle := magdec_le mode m
  have hnat := ofInt_magdec_toNat mode m
  rw [BitVec.toInt_eq_toNat_of_lt (by omega), hnat]

theorem ofInt_magdec_getLsbD_31 (mode : MagMode) (m : Byte) :
    (BitVec.ofInt 32 (magdec mode m)).getLsbD 31 = false := by
  have hle := magdec_le mode m
  rw [f32Sign_eq, ofInt_magdec_toNat, decide_eq_false_iff_not]
  omega

end Sys2Proof.Machine
end

section
/-! The statements about the magnitude decoder and MAG (spec/44_magnitude.md R71 to R73). -/

namespace Sys2Proof.Machine

/-- Settles O34: the digit loop reads the decimal digits in base two, by induction on its rounds. -/
theorem magnitudeFunctions : Obligations.MagnitudeFunctions :=
  ⟨fun m => ⟨magdec_raw m, magdec_digitwise m⟩, fun _ _ h => digitLoop_eq_ofDigits h⟩

/-- Settles O20: MAG answers OK with the mode's integer, which fits eight bits; the corner cases are evaluated. -/
theorem magOperation : Obligations.MagOperation := by
  refine ⟨fun mode b0 s => ?_, fun b0 s => ⟨_, exec_mag b0 s, rfl⟩, fun _ => rfl, wrongLengthReported .mag, by decide⟩
  refine ⟨_, execMagIn_eq mode b0 s, rfl, ?_, ofInt_magdec_getLsbD_31 mode b0, rfl, rfl, rfl, rfl⟩
  rw [respondOk_rsp, ofInt_magdec_toInt]
  cases mode with
  | raw => rw [magdec_raw]
  | digitwise => rw [magdec_digitwise]

/-- Settles O35: a byte's three digits weighted one, two and four, against the same digits weighted one, ten and a
hundred. -/
theorem magnitudeProperties : Obligations.MagnitudeProperties := by
  refine ⟨magdec_raw, fun m => ?_, fun _ hv => exists_magdec_digitwise_eq hv, by decide, by decide, by decide, by decide,
    fun mode b0 s => ⟨_, execMagIn_eq mode b0 s, ?_⟩⟩
  · obtain ⟨h, t, u, hh, ht, hu, hm, hdigitwise⟩ := exists_decimalDigits m
    have hlt := m.isLt
    rw [hdigitwise, magdec_raw]
    omega
  · rw [respondOk_rsp, ofInt_magdec_toInt, ofInt_magdec_toNat]

end Sys2Proof.Machine
end

section
/-! SUPPORT. The error response a step leaves, and the OK response of a valid request (spec/60_exceptions.md R74 to
R78). -/

namespace Sys2Proof.Machine

/-! ### The status word's two fields as numbers -/

theorem statusWord_toNat_mod (cmd : Byte) (st : Status) : (statusWord cmd st).toNat % 4 = st.code.toNat := by
  have hcode := st.code_toNat_lt
  rw [statusWord_toNat]
  omega

theorem statusWord_toNat_div (cmd : Byte) (st : Status) : (statusWord cmd st).toNat / 256 % 256 = cmd.toNat := by
  have hcmd := cmd.isLt
  have hcode := st.code_toNat_lt
  rw [statusWord_toNat]
  omega

/-! ### The two error conditions -/

/-- An operation number other than 1 to 6 or a set bit 7 is found before the data bytes are looked at (R78). -/
theorem decodeRequest_of_illegalCmd {cmd : Byte} (h : IllegalCmd cmd) (data : List Byte) :
    decodeRequest cmd data = .error .errOp := by
  obtain hrsv | hop := h
  · simp [decodeRequest, hrsv]
  · simp [decodeRequest, hop]

/-- R76's list, by operation number: each names an operation and gives it another length than its own. -/
theorem mismatchedCmd_of_number {cmd : Byte} (hrsv : cmd.toNat < 128)
    (h : ((cmd.toNat % 16 = 1 ∨ cmd.toNat % 16 = 2 ∨ cmd.toNat % 16 = 4 ∨ cmd.toNat % 16 = 6) ∧ cmd.toNat / 16 ≠ 2) ∨
      (cmd.toNat % 16 = 3 ∧ cmd.toNat / 16 ≠ 7) ∨ (cmd.toNat % 16 = 5 ∧ cmd.toNat / 16 ≠ 1)) : MismatchedCmd cmd := by
  obtain ⟨hangle | hfield | htemp | hid16, hlen⟩ | ⟨hxyz, hlen⟩ | ⟨hmag, hlen⟩ := h
  · exact mismatchedCmd_of_length (op := .angle) hrsv hangle hlen
  · exact mismatchedCmd_of_length (op := .field) hrsv hfield hlen
  · exact mismatchedCmd_of_length (op := .temp) hrsv htemp hlen
  · exact mismatchedCmd_of_length (op := .id16) hrsv hid16 hlen
  · exact mismatchedCmd_of_length (op := .xyz) hrsv hxyz hlen
  · exact mismatchedCmd_of_length (op := .mag) hrsv hmag hlen

/-- A request is answered OK or with one of the two errors (R74). -/
theorem decodedStatus_cases : ∀ d : Except ErrorKind Instr,
    decodedStatus d = .ok ∨ decodedStatus d = .errOp ∨ decodedStatus d = .errLen
  | .ok _ => .inl rfl
  | .error .errOp => .inr (.inl rfl)
  | .error .errLen => .inr (.inr rfl)

/-! ### The response of a step that takes a request -/

/-- No request has two responses. -/
theorem AnswersWith.unique {r : Request} {a b : Rsp} (ha : AnswersWith r a) (hb : AnswersWith r b)
    (hw : r.wellFormed = true) : a = b :=
  (ha.answer_eq hw).symm.trans (hb.answer_eq hw)

theorem exec_statusOf (i : Instr) (s : State) :
    ∃ t, exec i s = .next t ∧ statusOf t.rsp.rsp0 = .ok ∧ t.port = s.port := by
  obtain ⟨a, b, c, hexec⟩ := exec_shape i
  exact ⟨_, hexec s, statusOf_statusWord i.op.cmd .ok, rfl⟩

section Request
variable {s : State} {p : List PortEvent} {r : Request} {rest : List PortEvent}

/-- A request that decodes to an error is answered with it and consumed, data bytes and all (R75 to R77). -/
theorem step_request_error {e : ErrorKind} (h : takes p r rest = true) (hp : s.port = p ++ rest)
    (hd : decodeRequest r.cmd r.data = .error e) :
    ∃ t, step s = .next t ∧ statusOf t.rsp.rsp0 = errorStatus e ∧ t.rsp.rsp0.toNat % 4 = (errorStatus e).code.toNat ∧
      t.rsp.rsp0.toNat / 256 % 256 = r.cmd.toNat ∧ t.port = rest := by
  refine ⟨raiseError e r.cmd (s.withPort rest), ?_, statusOf_statusWord _ _, statusWord_toNat_mod _ _,
    statusWord_toNat_div _ _, rfl⟩
  rw [step_request h hp, hd]

/-- An operation's command byte makes a whole request some instruction's own (R42). -/
theorem eq_request_of_opCmd (hw : r.wellFormed = true) (h : ∃ op : Op, r.cmd = op.cmd) : ∃ i : Instr, r = i.request := by
  obtain ⟨i, hd⟩ := (exists_decodeRequest_eq_ok hw).2 h
  exact ⟨i, eq_request_of_decodeRequest hw hd⟩

/-- An instruction's own request is answered OK and consumed (R74). -/
theorem step_instr_statusOf {i : Instr} (h : takes p i.request rest = true) (hp : s.port = p ++ rest) :
    ∃ t, step s = .next t ∧ statusOf t.rsp.rsp0 = .ok ∧ t.port = rest := by
  rw [step_instr_request h hp]
  exact exec_statusOf i (s.withPort rest)

end Request

end Sys2Proof.Machine
end

section
/-! The statements about the two error conditions (spec/60_exceptions.md R74 to R78). -/

namespace Sys2Proof.Machine

/-- Settles O11: an illegal command byte decodes to ERR_OP, and the step writes that error's response. -/
theorem errOpReported : Obligations.ErrOpReported := by
  intro s p r rest h hill hp
  obtain ⟨-, hw, -, -⟩ := takes_eq_true.1 h
  exact step_request_error h hp ((decodeRequest_eq_errOp hw).2 (illegalCmd_iff.2 hill))

/-- Settles O12: R76's operations and lengths are the length mismatches, which decode to ERR_LEN. -/
theorem errLenReported : Obligations.ErrLenReported := by
  intro s p r rest h hrsv hlen hp
  obtain ⟨-, hw, -, -⟩ := takes_eq_true.1 h
  obtain ⟨t, hs, hstatus, hcode, hcmd, -⟩ :=
    step_request_error h hp ((decodeRequest_eq_errLen hw).2 (mismatchedCmd_of_number hrsv hlen))
  exact ⟨t, hs, hstatus, hcode, hcmd⟩

/-- Settles O13: a request that decodes to an error is answered with that error's response and no other. -/
theorem errorResponse : Obligations.ErrorResponse := by
  intro r e hw hd
  cases e with
  | errOp => exact (answersWith_error_iff hw .errOp).2 hd
  | errLen => exact (answersWith_error_iff hw .errLen).2 hd

/-- Settles O14: a set bit 7 makes the command byte illegal whatever its length, an illegal byte never decodes to ERR_LEN,
and a request has one response. -/
theorem errOpHasPriority : Obligations.ErrOpHasPriority := by
  refine ⟨fun cmd data op hdata hrsv _ _ => ?_, fun cmd data hd => not_illegalCmd_iff.1 fun hill => ?_,
    fun r a b hw ha hb => ha.unique hb hw⟩
  · have hw : Request.wellFormed ⟨cmd, data⟩ = true := request_wellFormed_iff.2 hdata
    have hill : IllegalCmd cmd := illegalCmd_iff.2 (.inl hrsv)
    refine ⟨(answersWith_errOp_iff hw).2 hill, fun hans => ?_⟩
    exact ((decodeRequest_eq_errLen hw).1 ((answersWith_errLen_iff hw).1 hans)).not_illegalCmd hill
  · rw [decodeRequest_of_illegalCmd hill] at hd
    cases hd

/-- Settles O15: a request's STATUS is that of its decoding, which is OK exactly for an instruction's own request; that is
every whole request under a valid command byte. -/
theorem twoErrorConditions : Obligations.TwoErrorConditions := by
  refine ⟨fun r hw => ⟨answersWith_answer r, ?_⟩, (answersWith_error_iff (r := ⟨0x80, []⟩) (by decide) .errOp).2 rfl,
    (answersWith_error_iff (r := ⟨0x01, []⟩) (by decide) .errLen).2 rfl, fun i s => ?_, fun i s rest hp => ?_,
    fun cmd data s p rest hcmd h hp => ?_⟩
  · rw [(answersWith_answer r).rsp0_eq hw, statusOf_statusWord]
    exact decodedStatus_cases _
  · obtain ⟨t, hs, hok, -⟩ := exec_statusOf i s
    exact ⟨t, hs, hok⟩
  · exact step_instr_statusOf (takes_asEvents i.request_wellFormed rest) hp
  · obtain ⟨-, hw, -, -⟩ := takes_eq_true.1 h
    obtain ⟨i, hi⟩ := eq_request_of_opCmd hw (exists_eq_opCmd.2 hcmd)
    rw [hi] at h
    obtain ⟨t, hs, hok, -⟩ := step_instr_statusOf h hp
    exact ⟨i, t, congrArg Request.bytes hi.symm, step_instr_request h hp, hs, hok⟩

end Sys2Proof.Machine
end

section
/-! SUPPORT. A whole request whose step has not happened, and RSP right after a reset (spec/70_reset_and_hazards.md R87,
R88). -/

namespace Sys2Proof.Machine

/-- A whole request whose last byte is held has not stepped when the host's next act lands. -/
theorem notStepped_heldByte {q : List PortEvent} {b : Byte} {r : Request} (hd : onlyDeliveries q = true)
    (hw : r.wellFormed = true) (hb : delivered q ++ [b] = r.bytes) : notStepped (q ++ [.heldByte b]) = true :=
  notStepped_eq_true.2 ⟨by simp [hd, PortEvent.byte?], .inr ⟨lastIsHeld_heldByte q b, r, hw, by simpa using hb⟩⟩

theorem AfterReset.of_hostReset {s : State} {p rest : List PortEvent} (hn : notStepped p = true)
    (hp : s.port = p ++ .reset :: rest) : AfterReset (hostReset (s.withPort rest)) :=
  .inr ⟨s, p, hn, hp, step_reset hn hp⟩

/-- Power-on and a reset in the port both leave RSP zero (R87). -/
theorem AfterReset.rsp_eq_zero {t : State} (h : AfterReset t) : t.rsp = Rsp.zero := by
  obtain ⟨p, rfl⟩ | ⟨s, p, hn, hp, hs⟩ := h
  · rfl
  · have ht : hostReset (s.withPort t.port) = t := Host.Outcome.next.inj ((step_reset hn hp).symm.trans hs)
    rw [← ht, hostReset_rsp]

/-- A read of RSP0 while RSP is zero, before any request has stepped, returns IDLE (R88). -/
theorem step_read_idle {t : State} {p rest : List PortEvent} (hzero : t.rsp = Rsp.zero) (hn : notStepped p = true)
    (hp : t.port = p ++ .read 0 :: rest) :
    ∃ u w, step t = .next u ∧ u.trace = .readOut 0 w :: t.trace ∧ statusOf w = .idle := by
  refine ⟨_, t.rsp.word 0, step_read hn hp, rfl, ?_⟩
  rw [hzero]
  exact statusOf_zero

end Sys2Proof.Machine
end

section
/-! The statements about reset and the first request after it (spec/70_reset_and_hazards.md R87, R88). -/

namespace Sys2Proof.Machine

/-- Settles O40: bytes that are not whole and a whole request with its last byte held are both deliveries not stepped,
which a reset passes over. -/
theorem resetDiscardsStartedRequest : Obligations.ResetDiscardsStartedRequest := by
  refine ⟨fun s p rest hn hp => step_reset hn hp, fun s bs rest hnone hp => ?_, fun s r bs b rest hw hb hp => ?_,
    step_wait rfl rfl⟩
  · exact step_reset (notStepped_of_none (asEvents_deliver bs) (by rwa [delivered_asEvents])) hp
  · have held : notStepped (asEvents bs ++ [.heldByte b]) = true :=
      notStepped_heldByte (asEvents_deliver bs) hw (by rw [delivered_asEvents, hb])
    exact step_reset held (by rw [hp, List.append_assoc, List.singleton_append])

/-- Settles O41: a step takes a request from every state, so also right after a reset, with R46's three outcomes; a read
before it finds RSP zero. -/
theorem readyAtOnceAfterReset : Obligations.ReadyAtOnceAfterReset := by
  refine ⟨fun s p rest hn hp => ⟨_, step_reset hn hp, rfl, .of_hostReset hn hp⟩, fun t i p rest _ h hp => ?_,
    fun t r p rest _ h hp hill => ?_, fun t r op p rest _ h hp hrsv hop hlen => ?_,
    fun t p rest ha hn hp => step_read_idle ha.rsp_eq_zero hn hp, fun s rest hp => ?_⟩
  · obtain ⟨a, b, c, hexec⟩ := exec_shape i
    have hs := step_instr_request h hp
    exact ⟨_, hs, hs.trans (hexec _), statusOf_statusWord i.op.cmd .ok, rfl, rfl⟩
  · obtain ⟨-, hw, -, -⟩ := takes_eq_true.1 h
    exact (answersWith_errOp_iff hw).2 (illegalCmd_iff.2 hill) t p rest h hp
  · obtain ⟨-, hw, -, -⟩ := takes_eq_true.1 h
    have hmis := mismatchedCmd_of_length hrsv hop hlen
    exact (answersWith_errLen_iff hw).2 ((decodeRequest_eq_errLen hw).2 hmis) t p rest h hp
  · obtain ⟨u, w, hs, htrace, hidle⟩ := step_read_idle (t := hostReset (s.withPort (.read 0 :: rest))) (p := [])
      rfl rfl rfl
    exact ⟨_, u, w, step_reset (p := []) rfl hp, hs, htrace, hidle⟩

end Sys2Proof.Machine
end

section
/-! SUPPORT. Every response a step writes is legal (spec/10_state.md R14 to R16), and everything a step can do in one
lemma. -/

namespace Sys2Proof.Machine

/-! ### The response of each operation is legal -/

/-- An axis's word is the field of a signed 16-bit code (R53). -/
theorem isFieldWord_magWord (b0 b1 : Byte) : IsFieldWord (magWord (msbFirst b0 b1)) := by
  have hlo : -32768 ≤ (BitVec.ofNat 16 (256 * b0.toNat + b1.toNat)).toInt := BitVec.le_toInt _
  have hhi : (BitVec.ofNat 16 (256 * b0.toNat + b1.toNat)).toInt < 32768 := BitVec.toInt_lt
  refine ⟨_, hlo, Int.lt_add_one_iff.1 hhi, ?_⟩
  rw [show ∀ k : ℚ, k * 5 / 4096 = k * 40 / 32768 from fun k => by ring]
  exact isF32Of_magWord b0 b1

/-- Each operation's result words are what its rule allows (R16). -/
theorem exec_resultLegal (i : Instr) (s : State) :
    ∃ t, exec i s = .next t ∧ t.rsp.rsp0 = statusWord i.op.cmd .ok ∧ t.rsp.ResultLegal i.op := by
  cases i with
  | angle b0 b1 =>
    have hcode : (256 * b0.toNat + b1.toNat) % 8192 ≤ 8191 := by omega
    exact ⟨_, exec_angle b0 b1 s, rfl, ⟨_, hcode, isF32Of_angleWord b0 b1⟩, rfl, rfl⟩
  | field b0 b1 => exact ⟨_, exec_field b0 b1 s, rfl, isFieldWord_magWord b0 b1, rfl, rfl⟩
  | xyz b0 b1 b2 b3 b4 b5 b6 =>
    exact ⟨_, exec_xyz b0 b1 b2 b3 b4 b5 b6 s, rfl, isFieldWord_magWord b0 b1, isFieldWord_magWord b2 b3,
      isFieldWord_magWord b4 b5⟩
  | temp b0 b1 =>
    have hnearest := isUniqueNearestF32_f32Rne_temp (tadct_le b0 b1)
    rw [temp_toRat_eq] at hnearest
    exact ⟨_, exec_temp b0 b1 s, rfl, ⟨_, tadct_le b0 b1, hnearest⟩, rfl, rfl⟩
  | mag b0 =>
    have hle := (ofInt_magdec_toNat Config.magMode b0).trans_le (magdec_le Config.magMode b0)
    exact ⟨_, exec_mag b0 s, rfl, hle, rfl, rfl⟩
  | id16 b0 b1 =>
    have hle := (lsbFirst_zeroExtend_toNat b0 b1).trans_le (tadct_le b0 b1)
    exact ⟨_, exec_id16 b0 b1 s, rfl, hle, rfl, rfl⟩

/-! ### The answer to each request is legal -/

theorem Rsp.legal_zero : Rsp.zero.Legal := by
  refine ⟨by decide, ?_⟩
  rw [statusOf_zero]

theorem Rsp.legal_of_ok {r : Rsp} {op : Op} (h : r.rsp0 = statusWord op.cmd .ok) (hres : r.ResultLegal op) :
    r.Legal := by
  simp only [Rsp.Legal, h, reservedZero_statusWord, statusOf_statusWord, cmdOf_statusWord, true_and]
  exact ⟨op, rfl, hres⟩

theorem Rsp.legal_of_error {r : Request} {e : ErrorKind} (hw : r.wellFormed = true)
    (hd : decodeRequest r.cmd r.data = .error e) : Rsp.Legal ⟨statusWord r.cmd (errorStatus e), 0, 0, 0⟩ := by
  refine ⟨reservedZero_statusWord _ _, ?_⟩
  rw [statusOf_statusWord, cmdOf_statusWord]
  cases e with
  | errOp => exact ⟨(decodeRequest_eq_errOp hw).1 hd, rfl, rfl, rfl⟩
  | errLen => exact ⟨(decodeRequest_eq_errLen hw).1 hd, rfl, rfl, rfl⟩

theorem answer_legal {r : Request} (hw : r.wellFormed = true) : (answer r).Legal := by
  have taken := takes_asEvents hw []
  have hans := answersWith_answer r (State.reset.withPort (asEvents r.bytes ++ [])) _ [] taken rfl
  rw [step_request taken rfl] at hans
  cases hd : decodeRequest r.cmd r.data with
  | ok i =>
    obtain ⟨t, ht, hstatus, hresult⟩ := exec_resultLegal i ((State.reset.withPort (asEvents r.bytes ++ [])).withPort [])
    rw [hd] at hans
    obtain rfl := Host.Outcome.next.inj (ht.symm.trans hans)
    exact Rsp.legal_of_ok hstatus hresult
  | error e =>
    rw [hd] at hans
    have hrsp : ⟨statusWord r.cmd (errorStatus e), 0, 0, 0⟩ = answer r :=
      congrArg State.rsp (Host.Outcome.next.inj hans)
    rw [← hrsp]
    exact Rsp.legal_of_error hw hd

/-- No request is answered IDLE (R15). -/
theorem answer_ne_idle {r : Request} (hw : r.wellFormed = true) : statusOf (answer r).rsp0 ≠ .idle := by
  rw [(answersWith_answer r).rsp0_eq hw, statusOf_statusWord]
  exact decodedStatus_ne_idle _

/-! ### What a step can do -/

/-- A step answers a request and is past its bytes, serves a read and leaves the deliveries before it, resets and
discards them, or waits with no whole request in the port (R46, R87, R98). -/
theorem step_cases {s t : State} (hs : step s = .next t) :
    (∃ p r rest, takes p r rest = true ∧ s.port = p ++ rest ∧ t = ⟨answer r, rest, .response (answer r) :: s.trace⟩) ∨
    (∃ p k rest, notStepped p = true ∧ s.port = p ++ .read k :: rest ∧ t = hostRead k (s.withPort (p ++ rest))) ∨
    (∃ p rest, notStepped p = true ∧ s.port = p ++ .reset :: rest ∧ t = hostReset (s.withPort rest)) ∨
    (onlyDeliveries s.port = true ∧ frameRequest (delivered s.port) = none ∧ t = s) := by
  have next_eq : ∀ {u}, step s = .next u → t = u := fun h => Host.Outcome.next.inj (hs.symm.trans h)
  obtain ⟨p, r, rest, h, hp⟩ | ⟨p, k, rest, hn, hp⟩ | ⟨p, rest, hn, hp⟩ | ⟨hd, hframe⟩ := port_cases s.port
  · exact .inl ⟨p, r, rest, h, hp, next_eq (answersWith_answer r s p rest h hp)⟩
  · exact .inr (.inl ⟨p, k, rest, hn, hp, next_eq (step_read hn hp)⟩)
  · exact .inr (.inr (.inl ⟨p, rest, hn, hp, next_eq (step_reset hn hp)⟩))
  · exact .inr (.inr (.inr ⟨hd, hframe, next_eq (step_wait hd hframe)⟩))

end Sys2Proof.Machine
end

section
/-! The statements about the invariant and the frame of the operations (spec/10_state.md R14 to R17, spec/20_memory.md
R30, spec/30_encoding.md R46). -/

namespace Sys2Proof.Machine

/-- Settles O3: a request writes its legal answer and records it, a read records the word in force, a reset puts zero in
force, and waiting changes nothing. -/
theorem stepKeepsInvariant : Obligations.StepKeepsInvariant := by
  rintro s t ⟨hlegal, hforce, hcoherent⟩ hs
  obtain ⟨p, r, rest, h, -, rfl⟩ | ⟨p, k, rest, -, -, rfl⟩ | ⟨p, rest, -, -, rfl⟩ | ⟨-, -, rfl⟩ := step_cases hs
  · obtain ⟨-, hw, -, -⟩ := takes_eq_true.1 h
    exact ⟨answer_legal hw, rfl, answer_legal hw, answer_ne_idle hw, hcoherent⟩
  · exact ⟨hlegal, hforce, congrArg (·.word k) hforce, hcoherent⟩
  · exact ⟨Rsp.legal_zero, rfl, hcoherent⟩
  · exact ⟨hlegal, hforce, hcoherent⟩

/-- Settles O2: after reset RSP is zero, the value in force after an empty history. -/
theorem resetStateMeetsInvariant : Obligations.ResetStateMeetsInvariant :=
  ⟨Rsp.legal_zero, rfl, trivial⟩

/-- Settles O22: every operation ends in one OK response under its command byte, with RES1 and RES2 zero but for XYZ. -/
theorem everyOperationCompletesInItsFrame : Obligations.EveryOperationCompletesInItsFrame := by
  intro i s
  obtain ⟨a, b, c, hexec⟩ := exec_shape i
  refine ⟨_, hexec s, rfl, rfl, statusWord_toNat i.op.cmd .ok, fun hop => ?_⟩
  obtain ⟨a', hexec'⟩ := exec_shape_of_ne_xyz hop
  rw [Host.Outcome.next.inj ((hexec s).symm.trans (hexec' s))]
  exact ⟨rfl, rfl⟩

/-- Settles O45: both operations make the axis's word from the same two bytes. -/
theorem xyzAxesAreFields : Obligations.XyzAxesAreFields := by
  intro b0 b1 b2 b3 b4 b5 b6 s
  exact ⟨_, _, _, _, exec_xyz b0 b1 b2 b3 b4 b5 b6 s, exec_field b0 b1 s, exec_field b2 b3 s, exec_field b4 b5 s,
    rfl, rfl, rfl⟩

end Sys2Proof.Machine
end

section
/-! SUPPORT. What a byte stream decodes to (spec/30_encoding.md R38 to R46). -/

namespace Sys2Proof

theorem decodeBytes_eq_instr {bs rest : List Byte} {i : Instr} : decodeBytes bs = .instr i rest ↔
    ∃ r, frameRequest bs = some (r, rest) ∧ decodeRequest r.cmd r.data = .ok i := by
  rw [decodeBytes]
  cases hf : frameRequest bs with
  | none => simp
  | some q =>
    obtain ⟨r, more⟩ := q
    cases hd : decodeRequest r.cmd r.data with
    | ok j => simp [hd, and_comm]
    | error e => simp [hd]

theorem decodeBytes_eq_rejected {bs rest : List Byte} {e : ErrorKind} {cmd : Byte} :
    decodeBytes bs = .rejected e cmd rest ↔
      ∃ r, frameRequest bs = some (r, rest) ∧ decodeRequest r.cmd r.data = .error e ∧ r.cmd = cmd := by
  rw [decodeBytes]
  cases hf : frameRequest bs with
  | none => simp
  | some q =>
    obtain ⟨r, more⟩ := q
    cases hd : decodeRequest r.cmd r.data with
    | ok j => simp [hd]
    | error e => simp [hd, and_comm, and_assoc]

/-- An instruction's encoding decodes to it, and the bytes after it are left. -/
theorem decodeBytes_encode (i : Instr) (rest : List Byte) : decodeBytes (encode i ++ rest) = .instr i rest :=
  decodeBytes_eq_instr.2 ⟨i.request, frameRequest_append i.request_wellFormed rest, decodeRequest_request i⟩

/-- Only an instruction's encoding decodes to it. -/
theorem eq_encode_of_decodeBytes {bs rest : List Byte} {i : Instr} (h : decodeBytes bs = .instr i rest) :
    bs = encode i ++ rest := by
  obtain ⟨r, hframe, hd⟩ := decodeBytes_eq_instr.1 h
  obtain ⟨hw, rfl⟩ := frameRequest_eq_some hframe
  rw [Machine.eq_request_of_decodeRequest hw hd, encode]

end Sys2Proof
end

section
/-! The statements about the decoder on a byte stream (spec/30_encoding.md R42, R46). -/

namespace Sys2Proof.Machine

/-- Settles O4: decoding undoes the encoder, and a whole request that decodes to an instruction is its own. -/
theorem decodeAndEncodeAgree : Obligations.DecodeAndEncodeAgree := by
  intro i bs rest _
  constructor
  · exact eq_encode_of_decodeBytes
  · rintro rfl
    exact decodeBytes_encode i rest

/-- Settles O5: each sample is the encoding of its instruction, byte for byte. -/
theorem sampleEncodingsDecode : Obligations.SampleEncodingsDecode :=
  ⟨decodeBytes_encode (.angle _ _) [], decodeBytes_encode (.field _ _) [], decodeBytes_encode (.xyz _ _ _ _ _ _ _) [],
    decodeBytes_encode (.temp _ _) [], decodeBytes_encode (.mag _) [], decodeBytes_encode (.id16 _ _) []⟩

/-- Settles O6: bytes that decode or are rejected begin with a whole request, which the step takes. -/
theorem stepRunsTheDecodedInstruction : Obligations.StepRunsTheDecodedInstruction := by
  have rejected : ∀ (s : State) (p rest : List PortEvent) (r : Request) (e : ErrorKind), takes p r rest = true →
      decodeRequest r.cmd r.data = .error e → s.port = p ++ rest →
      step s = .next (raiseError e r.cmd (s.withPort rest)) := by
    intro s p rest r e h hd hp
    rw [step_request h hp, hd]
  refine ⟨fun s bs rest i p hd hp => ?_, fun s bs rest e cmd p hd hp => ?_, fun s p rest i h hp => ?_, rejected⟩
  · rw [eq_encode_of_decodeBytes hd, asEvents_append, List.append_assoc] at hp
    exact step_instr_request (takes_asEvents i.request_wellFormed _) hp
  · obtain ⟨r, hframe, hdec, rfl⟩ := decodeBytes_eq_rejected.1 hd
    obtain ⟨hw, rfl⟩ := frameRequest_eq_some hframe
    rw [asEvents_append, List.append_assoc] at hp
    exact rejected s _ _ r e (takes_asEvents hw _) hdec hp
  · exact step_instr_request h hp

end Sys2Proof.Machine
end

section
/-! SUPPORT. Which temperatures a binary32 value can equal (spec/43_temperature.md R66). -/

namespace Sys2Proof

/-- A binary32 value is dyadic: it equals a fraction over an odd denominator only if that fraction is an integer. -/
theorem dvd_of_f32Value_eq_div {w : Word} {n : Int} {d : Nat} (hd : Odd d) (h : (f32Value w).toRat = (n : ℚ) / d) :
    (d : Int) ∣ n := by
  obtain ⟨j, hden⟩ : ∃ j : Nat, (f32Value w).den = 2 ^ j := ⟨_, rfl⟩
  have hd' : (d : ℚ) ≠ 0 := by exact_mod_cast hd.pos.ne'
  rw [Frac.toRat, hden, Nat.cast_pow, Nat.cast_ofNat, div_eq_div_iff (by positivity) hd'] at h
  have hcleared : (f32Value w).num * d = n * 2 ^ j := by exact_mod_cast h
  have hcoprime : IsCoprime (d : Int) (2 ^ j) :=
    IsCoprime.pow_right (Nat.isCoprime_iff_coprime.2 (Nat.coprime_two_right.2 hd))
  exact hcoprime.dvd_of_dvd_mul_right (hcleared ▸ dvd_mul_left _ _)

namespace Machine

/-- Ten times the distance from the reference code is a multiple of 601 only for every 601st code. -/
theorem dvd_temp_num_iff {c : Nat} (hc : c ≤ 65535) : (601 : Int) ∣ 10 * c - 160055 ↔
    ∃ k : Int, -29 ≤ k ∧ k ≤ 79 ∧ (c : Int) = 17508 + 601 * k := by
  constructor
  · intro h
    exact ⟨(c - 17508) / 601, by omega, by omega, by omega⟩
  · rintro ⟨k, -, -, hk⟩
    omega

/-- Every 601st code is a whole number of degrees, which fits the significand. -/
theorem f32Value_f32Rne_temp_of_dvd {c : Nat} (hc : c ≤ 65535) (h : (601 : Int) ∣ 10 * c - 160055) :
    (f32Value (f32Rne (temp c))).toRat = (temp c).toRat := by
  obtain ⟨z, hz⟩ := h
  have hdegrees : (temp c).toRat = z * 2 ^ (0 : Int) := by
    rw [temp_toRat_eq_div, hz]
    push_cast
    ring
  obtain ⟨-, hvalue, -⟩ := f32Exact_value (temp c) (temp_den_ne_zero c) z 0 hdegrees (by omega) (by norm_num)
    (by norm_num)
  exact hvalue

end Machine

end Sys2Proof
end

section
/-! The statement about the rounding of the temperature (spec/43_temperature.md R66). -/

namespace Sys2Proof.Machine

/-- Settles O32: the temperature is an integer over 601, which a dyadic value equals only where 601 divides it, and
there it is a whole number of degrees. -/
theorem temperatureIsNearest : Obligations.TemperatureIsNearest := by
  refine ⟨fun c hc => isUniqueNearestF32_f32Rne_temp hc, fun c hc => ?_⟩
  rw [← dvd_temp_num_iff hc]
  constructor
  · intro hexact
    exact dvd_of_f32Value_eq_div (d := 601) (by decide) (hexact.trans (temp_toRat_eq_div c))
  · exact f32Value_f32Rne_temp_of_dvd hc

end Sys2Proof.Machine
end

section
/-! SUPPORT. Runs of the machine over reads and requests, and until nothing more can be taken (spec/20_memory.md R30,
spec/70_reset_and_hazards.md R87, R97). -/

namespace Sys2Proof.Machine

/-! ### Runs step by step -/

theorem run_succ {s t : State} (h : step s = .next t) (n : Nat) : core.run (n + 1) s = core.run n t := by
  have hcore : core.step s = .next t := h
  simp only [Host.Core.run, hcore]

theorem run_add {s t : State} {m : Nat} (h : core.run m s = .next t) (n : Nat) :
    core.run (m + n) s = core.run n t := by
  induction m generalizing s with
  | zero =>
    obtain rfl : s = t := Host.Outcome.next.inj h
    rw [Nat.zero_add]
  | succ m ih =>
    obtain ⟨u, hu⟩ := exists_step_eq_next s
    rw [run_succ hu] at h
    rw [Nat.add_right_comm, run_succ hu]
    exact ih h

/-- A state that waits does not change. -/
theorem run_of_wait {s : State} (h : step s = .next s) (n : Nat) : core.run n s = .next s := by
  induction n with
  | zero => rfl
  | succ n ih => rw [run_succ h, ih]

/-! ### Reads, and a request with its reads -/

/-- The response word space by index (R37). -/
theorem Rsp.word_eq_getD (r : Rsp) (k : Fin 4) :
    r.word k = ([r.rsp0, r.rsp1, r.rsp2, r.rsp3] : List Word).getD k.val 0 := by
  fin_cases k <;> rfl

/-- Reads in a row each return the word in force and leave RSP alone. -/
theorem run_reads (ks : List (Fin 4)) (rsp : Rsp) (rest : List PortEvent) (trace : List Observation) :
    core.run ks.length (⟨rsp, ks.map PortEvent.read ++ rest, trace⟩ : State) =
      .next (⟨rsp, rest, (ks.map fun k => .readOut k (rsp.word k)).reverse ++ trace⟩ : State) := by
  induction ks generalizing trace with
  | nil => rfl
  | cons k ks ih =>
    have hread : step ⟨rsp, (k :: ks).map PortEvent.read ++ rest, trace⟩ =
        .next ⟨rsp, ks.map PortEvent.read ++ rest, .readOut k (rsp.word k) :: trace⟩ := step_read (p := []) rfl rfl
    rw [List.length_cons, run_succ hread, ih]
    simp

/-- The events of one entry of a script: a request's bytes, and the reads after it. -/
def scriptEvents (x : Request × List (Fin 4)) : List PortEvent := asEvents x.1.bytes ++ x.2.map PortEvent.read

/-- What the host observes of it: the response, and what each read returns. -/
def scriptTrace (x : Request × List (Fin 4)) : List Observation :=
  .response (answer x.1) :: x.2.map fun k => .readOut k ((answer x.1).word k)

/-- One entry of a script is a step and its reads, all of them of that step's response (R30). -/
theorem run_scriptEntry {x : Request × List (Fin 4)} (hw : x.1.wellFormed = true) {s : State} {rest : List PortEvent}
    (hp : s.port = scriptEvents x ++ rest) :
    core.run (1 + x.2.length) s = .next (⟨answer x.1, rest, (scriptTrace x).reverse ++ s.trace⟩ : State) := by
  rw [scriptEvents, List.append_assoc] at hp
  rw [Nat.add_comm, run_succ (answersWith_answer x.1 s _ _ (takes_asEvents hw _) hp), run_reads]
  simp [scriptTrace]

/-- A script runs entry by entry. -/
theorem run_script {script : List (Request × List (Fin 4))} (hw : ∀ x ∈ script, x.1.wellFormed = true) {s : State}
    {rest : List PortEvent} (hp : s.port = script.flatMap scriptEvents ++ rest) :
    ∃ t : State, core.run (script.map fun x => 1 + x.2.length).sum s = .next t ∧ t.port = rest ∧
      t.trace = (script.flatMap scriptTrace).reverse ++ s.trace := by
  induction script generalizing s with
  | nil => exact ⟨s, rfl, hp, rfl⟩
  | cons x script ih =>
    obtain ⟨hx, hscript⟩ := List.forall_mem_cons.1 hw
    rw [List.flatMap_cons, List.append_assoc] at hp
    obtain ⟨t, hrun, hport, htrace⟩ := ih hscript (s := ⟨answer x.1, _, (scriptTrace x).reverse ++ s.trace⟩) rfl
    refine ⟨t, ?_, hport, ?_⟩
    · rw [List.map_cons, List.sum_cons, run_add (run_scriptEntry hx hp), hrun]
    · simpa using htrace

/-! ### Draining the port -/

/-- A step takes at least one event from the port, or there is nothing to take and it changes nothing. -/
theorem step_drains {s t : State} (hs : step s = .next t) : t.port.length < s.port.length ∨
    (onlyDeliveries s.port = true ∧ frameRequest (delivered s.port) = none ∧ t = s) := by
  obtain ⟨p, r, rest, h, hp, rfl⟩ | ⟨p, k, rest, -, hp, rfl⟩ | ⟨p, rest, -, hp, rfl⟩ | hwait := step_cases hs
  · obtain ⟨-, -, hbytes, -⟩ := takes_eq_true.1 h
    have hne : p ≠ [] := by
      rintro rfl
      cases hbytes
    have hpos := List.length_pos_iff.2 hne
    rw [hp, List.length_append]
    exact .inl (by dsimp only; omega)
  · simp [hp]
  · simp only [hp, hostReset_port, withPort_port, List.length_append, List.length_cons]
    omega
  · exact .inr hwait

/-- As many steps as the port holds events, or more, leave nothing that can be taken. -/
theorem run_drains {n : Nat} {s : State} (hn : s.port.length ≤ n) : ∃ t : State, core.run n s = .next t ∧
    onlyDeliveries t.port = true ∧ frameRequest (delivered t.port) = none := by
  induction n generalizing s with
  | zero =>
    have hport : s.port = [] := List.eq_nil_of_length_eq_zero (Nat.le_zero.1 hn)
    exact ⟨s, rfl, by rw [hport]; rfl, by rw [hport]; rfl⟩
  | succ n ih =>
    obtain ⟨t, hs⟩ := exists_step_eq_next s
    obtain hlt | ⟨hd, hframe, rfl⟩ := step_drains hs
    · rw [run_succ hs]
      exact ih (by omega)
    · exact ⟨t, run_of_wait hs _, hd, hframe⟩

end Sys2Proof.Machine
end

section
/-! The statements about host reads and the order of events (spec/10_state.md R17, spec/20_memory.md R30,
spec/70_reset_and_hazards.md R98). -/

namespace Sys2Proof.Machine

/-- Settles O38: a read takes itself out of the port and leaves RSP, so the same read again finds the same word; of the
four things a step can do, only a request and a reset write RSP. -/
theorem hostReadsReturnCurrentWord : Obligations.HostReadsReturnCurrentWord := by
  refine ⟨fun s p k rest hn hp => ?_, fun s p k rest hn hp => ?_, fun s t hs hne => ?_⟩
  · rw [← Rsp.word_eq_getD]
    exact step_read hn hp
  · exact ⟨_, _, s.rsp.word k, step_read hn hp, step_read hn rfl, rfl, rfl⟩
  · obtain ⟨p, r, rest, h, hp, rfl⟩ | ⟨p, k, rest, -, -, rfl⟩ | ⟨p, rest, hn, hp, rfl⟩ | ⟨-, -, rfl⟩ := step_cases hs
    · exact .inl ⟨p, r, rest, h, hp, rfl⟩
    · exact absurd rfl hne
    · exact .inr ⟨p, rest, hn, hp, rfl⟩
    · exact absurd rfl hne

/-- Settles O39: each entry of the script is a step and the reads of its response, and the runs follow one another. -/
theorem requestsAndReadsInOrder : Obligations.RequestsAndReadsInOrder :=
  fun _ _ _ hw hp => run_script hw hp

/-- Settles O44: every step that does not wait makes the port shorter. -/
theorem portIsDrained : Obligations.PortIsDrained := fun _ => run_drains le_rfl

end Sys2Proof.Machine
end

section
/-! SUPPORT. Which lines the assembler accepts and the requests they assemble to (spec/30_encoding.md R47; log entry
11). -/

namespace Sys2Proof.Machine

/-! ### The accepted lines of each kind -/

theorem all_isByteLit_iff {ns : List Nat} : ns.all isByteLit = true ↔ ∀ n ∈ ns, n < 256 := by simp [isByteLit]

theorem all_isHalfLit_iff {ns : List Nat} : ns.all isHalfLit = true ↔ ∀ n ∈ ns, n < 65536 := by simp [isHalfLit]

theorem op_wellFormed_iff {o : Op} {ns : List Nat} :
    (AsmLine.op o ns).wellFormed = true ↔ ns.length = o.requiredLen ∧ ∀ n ∈ ns, n < 256 := by
  rw [AsmLine.wellFormed, Bool.and_eq_true, beq_iff_eq, all_isByteLit_iff]

theorem raw_wellFormed_iff {c : Nat} {ns : List Nat} :
    (AsmLine.raw c ns).wellFormed = true ↔ c < 256 ∧ (∀ n ∈ ns, n < 256) ∧ ns.length = c / 16 % 8 := by
  simp only [AsmLine.wellFormed, Bool.and_eq_true, beq_iff_eq, all_isByteLit_iff, isByteLit, decide_eq_true_iff,
    and_assoc]
  refine and_congr_right fun hc => ?_
  rw [cmdLen_eq, BitVec.toNat_ofNat, Nat.mod_eq_of_lt hc]

/-- The pseudo-instructions with one 16-bit operand. -/
theorem pseudo_wellFormed_iff {q : Pseudo} (hq : q ≠ .xyzW) {ns : List Nat} :
    (AsmLine.pseudo q ns).wellFormed = true ↔ ns.length = 1 ∧ ∀ n ∈ ns, n < 65536 := by
  cases q
  case xyzW => exact absurd rfl hq
  all_goals rw [AsmLine.wellFormed, Bool.and_eq_true, beq_iff_eq, all_isHalfLit_iff]

theorem xyzW_wellFormed_iff {ns : List Nat} : (AsmLine.pseudo .xyzW ns).wellFormed = true ↔
    ∃ x y z st, ns = [x, y, z, st] ∧ x < 65536 ∧ y < 65536 ∧ z < 65536 ∧ st < 256 := by
  constructor
  · intro h
    match ns, h with
    | [x, y, z, st], h =>
      simp only [AsmLine.wellFormed, Bool.and_eq_true, isHalfLit, isByteLit, decide_eq_true_iff, and_assoc] at h
      exact ⟨x, y, z, st, rfl, h⟩
  · rintro ⟨x, y, z, st, rfl, hx, hy, hz, hst⟩
    simp [AsmLine.wellFormed, isHalfLit, isByteLit, hx, hy, hz, hst]

/-! ### The bytes of a line -/

theorem assembleLine_of_wellFormed {l : AsmLine} (h : l.wellFormed = true) : assembleLine l = some (lineBytes l) :=
  if_pos h

theorem assembleLine_eq_none {l : AsmLine} : assembleLine l = none ↔ ¬ l.wellFormed = true := by
  simp [assembleLine]

theorem assembleLine_eq_some {l : AsmLine} {bs : List Byte} :
    assembleLine l = some bs ↔ l.wellFormed = true ∧ lineBytes l = bs := by
  simp [assembleLine]

/-- A mnemonic with its operation's number of operands is an instruction's encoding. -/
theorem lineBytes_op {o : Op} {ns : List Nat} (h : ns.length = o.requiredLen) :
    ∃ i : Instr, i.op = o ∧ i.operands = ns.map (BitVec.ofNat 8) ∧ lineBytes (.op o ns) = encode i := by
  obtain ⟨i, hi⟩ := instrOf_isSome (op := o) (data := ns.map (BitVec.ofNat 8)) (by rwa [List.length_map])
  obtain ⟨hop, hoperands⟩ := instrOf_eq_some.1 hi
  refine ⟨i, hop, hoperands, ?_⟩
  rw [encode, Request.bytes, Instr.request, hop, hoperands]
  rfl

/-- A pseudo-instruction stands for a mnemonic with its operation's number of operands. -/
theorem expandPseudo_eq_op {q : Pseudo} {ns : List Nat} (h : (AsmLine.pseudo q ns).wellFormed = true) :
    ∃ o bs, expandPseudo q ns = .op o bs ∧ bs.length = o.requiredLen := by
  by_cases hq : q = .xyzW
  · subst hq
    obtain ⟨x, y, z, st, rfl, -⟩ := xyzW_wellFormed_iff.1 h
    exact ⟨_, _, rfl, rfl⟩
  · obtain ⟨hlen, -⟩ := (pseudo_wellFormed_iff hq).1 h
    obtain ⟨n, rfl⟩ := List.length_eq_one_iff.1 hlen
    cases q
    case xyzW => exact absurd rfl hq
    all_goals exact ⟨_, _, rfl, rfl⟩

/-- The bytes are those of whole requests. -/
def AreRequests (bs : List Byte) : Prop :=
  ∃ rs : List Request, (∀ r ∈ rs, r.wellFormed = true) ∧ bs = rs.flatMap Request.bytes

theorem areRequests_nil : AreRequests [] := ⟨[], nofun, rfl⟩

theorem areRequests_bytes {r : Request} (h : r.wellFormed = true) : AreRequests r.bytes :=
  ⟨[r], by simpa using h, by simp⟩

theorem AreRequests.append {a b : List Byte} (ha : AreRequests a) (hb : AreRequests b) : AreRequests (a ++ b) := by
  obtain ⟨rs, hrs, rfl⟩ := ha
  obtain ⟨qs, hqs, rfl⟩ := hb
  exact ⟨rs ++ qs, List.forall_mem_append.2 ⟨hrs, hqs⟩, List.flatMap_append.symm⟩

/-- Such bytes are cut at their request boundaries into whole requests (R40). -/
theorem AreRequests.frameAll_eq {bs : List Byte} (h : AreRequests bs) :
    (frameAll bs).flatMap Request.bytes = bs ∧ ∀ r ∈ frameAll bs, r.wellFormed = true := by
  obtain ⟨rs, hrs, rfl⟩ := h
  rw [frameAll, frameAllIn_flatMap_bytes hrs le_rfl]
  exact ⟨rfl, hrs⟩

theorem areRequests_lineBytes_op {o : Op} {ns : List Nat} (h : ns.length = o.requiredLen) :
    AreRequests (lineBytes (.op o ns)) := by
  obtain ⟨i, -, -, hbytes⟩ := lineBytes_op h
  rw [hbytes]
  exact areRequests_bytes i.request_wellFormed

/-- An accepted line assembles to a whole request, or to nothing. -/
theorem areRequests_lineBytes {l : AsmLine} (h : l.wellFormed = true) : AreRequests (lineBytes l) := by
  cases l with
  | blank => exact areRequests_nil
  | op o ns => exact areRequests_lineBytes_op (op_wellFormed_iff.1 h).1
  | pseudo q ns =>
    obtain ⟨o, bs, hexpand, hlen⟩ := expandPseudo_eq_op h
    rw [lineBytes, hexpand]
    exact areRequests_lineBytes_op hlen
  | raw c ns =>
    obtain ⟨hc, -, hlen⟩ := raw_wellFormed_iff.1 h
    refine areRequests_bytes (r := ⟨BitVec.ofNat 8 c, ns.map (BitVec.ofNat 8)⟩) (request_wellFormed_iff.2 ?_)
    rw [List.length_map, hlen, BitVec.toNat_ofNat, Nat.mod_eq_of_lt hc]

/-! ### The bytes of a program -/

theorem assemble_cons_eq_some {l : AsmLine} {ls : List AsmLine} {bs : List Byte} : assemble (l :: ls) = some bs ↔
    ∃ a b, assembleLine l = some a ∧ assemble ls = some b ∧ a ++ b = bs := by
  rw [assemble]
  cases assembleLine l <;> cases assemble ls <;> simp

/-- One rejected line fails the program, and nothing else does (log entry 11). -/
theorem assemble_eq_none {ls : List AsmLine} : assemble ls = none ↔ ∃ l ∈ ls, assembleLine l = none := by
  induction ls with
  | nil => simp [assemble]
  | cons l ls ih =>
    rw [assemble, List.exists_mem_cons_iff, ← ih]
    cases assembleLine l <;> cases assemble ls <;> simp

/-- A program assembles to the bytes of its lines in order, each line's whole requests. -/
theorem assemble_eq_some {ls : List AsmLine} {bs : List Byte} (h : assemble ls = some bs) :
    ls.flatMap (fun l => (assembleLine l).getD []) = bs ∧ AreRequests bs := by
  induction ls generalizing bs with
  | nil =>
    obtain rfl : [] = bs := Option.some.inj h
    exact ⟨rfl, areRequests_nil⟩
  | cons l ls ih =>
    obtain ⟨a, b, ha, hb, rfl⟩ := assemble_cons_eq_some.1 h
    obtain ⟨hlines, hrequests⟩ := ih hb
    obtain ⟨hl, rfl⟩ := assembleLine_eq_some.1 ha
    rw [List.flatMap_cons, ha, hlines]
    exact ⟨rfl, (areRequests_lineBytes hl).append hrequests⟩

/-! ### The two bytes of a 16-bit operand -/

theorem ofNat_highByte (n : Half) : BitVec.ofNat 8 (highByte n.toNat) = n.extractLsb' 8 8 := by
  apply BitVec.eq_of_toNat_eq
  rw [BitVec.toNat_ofNat, BitVec.extractLsb'_toNat, Nat.shiftRight_eq_div_pow, highByte]
  omega

theorem ofNat_lowByte (n : Half) : BitVec.ofNat 8 (lowByte n.toNat) = n.extractLsb' 0 8 := by
  apply BitVec.eq_of_toNat_eq
  rw [BitVec.toNat_ofNat, BitVec.extractLsb'_toNat, Nat.shiftRight_zero, lowByte]
  omega

theorem assembleLine_pseudo {q : Pseudo} (hq : q ≠ .xyzW) (n : Half) :
    assembleLine (.pseudo q [n.toNat]) = some (lineBytes (.pseudo q [n.toNat])) :=
  assembleLine_of_wellFormed ((pseudo_wellFormed_iff hq).2 ⟨rfl, List.forall_mem_singleton.2 n.isLt⟩)

theorem assembleLine_xyzW (x y z : Half) (s : Byte) :
    assembleLine (.pseudo .xyzW [x.toNat, y.toNat, z.toNat, s.toNat]) =
      some (lineBytes (.pseudo .xyzW [x.toNat, y.toNat, z.toNat, s.toNat])) :=
  assembleLine_of_wellFormed (xyzW_wellFormed_iff.2 ⟨_, _, _, _, rfl, x.isLt, y.isLt, z.isLt, s.isLt⟩)

end Sys2Proof.Machine
end

section
/-! The statements about the assembler (spec/30_encoding.md R47). -/

namespace Sys2Proof.Machine

/-- Settles O46: each kind of line is accepted exactly under its check, and an accepted line is whole requests, so a
program is cut back into them. -/
theorem assembledProgramsAreRequests : Obligations.AssembledProgramsAreRequests := by
  refine ⟨fun o ns h => ?_, fun o ns h => ?_, fun c ns hc hns hlen => ?_, fun c ns h => ?_, fun q ns hq h => ?_,
    fun ns h => ?_, fun ls => assemble_eq_none, fun ls bs h => ?_⟩
  · obtain ⟨i, hop, hoperands, hbytes⟩ := lineBytes_op h.1
    refine ⟨i, hop, hoperands, ?_⟩
    rw [← hbytes]
    exact assembleLine_of_wellFormed (op_wellFormed_iff.2 h)
  · exact assembleLine_eq_none.2 (mt op_wellFormed_iff.1 h)
  · exact assembleLine_of_wellFormed (raw_wellFormed_iff.2 ⟨hc, hns, hlen⟩)
  · exact assembleLine_eq_none.2 (mt raw_wellFormed_iff.1 h)
  · exact assembleLine_eq_none.2 (mt (pseudo_wellFormed_iff hq).1 h)
  · refine assembleLine_eq_none.2 fun hw => ?_
    obtain ⟨x, y, z, st, hns, hfits⟩ := xyzW_wellFormed_iff.1 hw
    exact h x y z st hns hfits
  · obtain ⟨hlines, hrequests⟩ := assemble_eq_some h
    exact ⟨hlines, hrequests.frameAll_eq⟩

/-- Settles O47: operands of their width are accepted, and the expansion lists their bytes in each operation's order. -/
theorem pseudoInstructionsExpand : Obligations.PseudoInstructionsExpand := by
  intro n x y z s
  have hs : BitVec.ofNat 8 s.toNat = s := by rw [BitVec.ofNat_toNat, BitVec.setWidth_eq]
  simp only [← ofNat_highByte, ← ofNat_lowByte]
  refine ⟨assembleLine_pseudo (by decide) n, assembleLine_pseudo (by decide) n, ?_, assembleLine_pseudo (by decide) n,
    assembleLine_pseudo (by decide) n⟩
  have hbytes : lineBytes (.pseudo .xyzW [x.toNat, y.toNat, z.toNat, s.toNat]) =
      encode (.xyz _ _ _ _ _ _ (BitVec.ofNat 8 s.toNat)) := rfl
  rw [assembleLine_xyzW, hbytes, hs]

end Sys2Proof.Machine
end
